-- ==== Sys2Proof/Word.lean ====
section
/-! DEFINITION. The machine's bit strings: bytes, words of XLEN = 32 bits, and register numbers
(00_scope.md R6, R7, R10; 10_state.md R20). -/

namespace Sys2Proof

/-- One byte of program memory (20_memory.md R51). -/
abbrev Byte := BitVec 8

/-- One register or one word of data memory: XLEN = 32 bits (00_scope.md R6, R10). -/
abbrev Word := BitVec 32

/-- A register number. "Register indices always in [0,7]" holds by the width of the 3-bit field
that names one (10_state.md R20). -/
abbrev RegIdx := Fin 8

end Sys2Proof
end

