-- ==== Sys2Proof/Syntax.lean ====
section
/-! DEFINITION. The decoded instruction: one of four variants "holding its operand values as
already-decoded integers" (30_encoding.md R91). Padding bits are not part of it. -/

namespace Sys2Proof

/-- The four instructions, operands in field order B, C, D, E (30_encoding.md R83 to R86, R91).
Register operands are in range by their type; the range of the other operands is WellFormed's. -/
inductive Instr where
  /-- LOAD_CONST, opcode 234: `reg` is field B, `const13` is field C sign-extended (R83). -/
  | loadConst (reg : RegIdx) (const13 : Int)
  /-- READ_MEM, opcode 102: `offset13` is field B sign-extended, `dstReg` C, `baseReg` D (R84). -/
  | readMem (offset13 : Int) (dstReg baseReg : RegIdx)
  /-- WRITE_MEM, opcode 90: `srcReg` is field B, `addrReg` is field C (R85). -/
  | writeMem (srcReg addrReg : RegIdx)
  /-- SHIFT_RIGHT, opcode 224: `valReg` is field B, `shiftOperand` is field C unsigned, `offset13`
  is field D sign-extended, `baseReg` is field E (R86). -/
  | shiftRight (valReg : RegIdx) (shiftOperand offset13 : Int) (baseReg : RegIdx)
deriving DecidableEq, Repr

end Sys2Proof
end

