-- ==== Sys2Proof/WellFormed.lean ====
section
/-! DEFINITION. Which instruction terms stand for an encodable instruction: every operand "within
that opcode's declared field widths" (30_encoding.md R104, R106). -/

namespace Sys2Proof

/-- The values a signed 13-bit field can hold (30_encoding.md R90). -/
abbrev InSigned13 (v : Int) : Prop := -4096 ≤ v ∧ v ≤ 4095

/-- The values the unsigned 23-bit field can hold (30_encoding.md R104; 43_shift_right.md R181). -/
abbrev InUnsigned23 (v : Int) : Prop := 0 ≤ v ∧ v ≤ 8388607

/-- The check: every operand fits its field. Register operands fit by their type. -/
def Instr.wellFormed (i : Instr) : Bool :=
  match i with
  | .loadConst _ const13 => decide (InSigned13 const13)
  | .readMem offset13 _ _ => decide (InSigned13 offset13)
  | .writeMem _ _ => true
  | .shiftRight _ shiftOperand offset13 _ =>
    decide (InUnsigned23 shiftOperand) && decide (InSigned13 offset13)

/-- The instruction passes the check. -/
abbrev Instr.WellFormed (i : Instr) : Prop := i.wellFormed = true

end Sys2Proof
end

