-- ==== Sys2Proof/Decode.lean ====
section
/-! DEFINITION. The bit-layout table, the decoder and after it the reference encoder, both written
from the table (30_encoding.md R80 to R107). The decoder is pure: the same bytes always decode the
same way (10_state.md R39; 30_encoding.md R102). -/

namespace Sys2Proof

/-! ## The bit-layout table (30_encoding.md R80, R83 to R86) -/

/-- What a field's bits stand for (30_encoding.md R89). -/
inductive FieldKind where
  /-- An unsigned 3-bit register number. -/
  | register
  /-- A two's-complement quantity. -/
  | signed
  /-- A plain natural number. -/
  | unsigned
deriving DecidableEq, Repr

/-- A contiguous range of instruction bits `[hi:lo]` (30_encoding.md R82). -/
structure BitField where
  hi : Nat
  lo : Nat
  kind : FieldKind
deriving DecidableEq, Repr

/-- `w = hi - lo + 1` (30_encoding.md R87). -/
def BitField.width (f : BitField) : Nat := f.hi - f.lo + 1

/-- One row of the table: the opcode byte (field A, bits `[7:0]`), the length in bytes, the operand
fields in field order, and the padding as ranges `(hi, lo)` (30_encoding.md R80, R81, R98). -/
structure Layout where
  opcode : Byte
  bytes : Nat
  fields : List BitField
  padding : List (Nat × Nat)
deriving DecidableEq, Repr

/-- LOAD_CONST field B, the destination register (30_encoding.md R83). -/
def fieldLoadConstB : BitField := ⟨10, 8, .register⟩
/-- LOAD_CONST field C, the signed constant (30_encoding.md R83). -/
def fieldLoadConstC : BitField := ⟨23, 11, .signed⟩
/-- READ_MEM field B, the signed address offset (30_encoding.md R84). -/
def fieldReadMemB : BitField := ⟨20, 8, .signed⟩
/-- READ_MEM field C, the destination register (30_encoding.md R84). -/
def fieldReadMemC : BitField := ⟨23, 21, .register⟩
/-- READ_MEM field D, the base register (30_encoding.md R84). -/
def fieldReadMemD : BitField := ⟨26, 24, .register⟩
/-- WRITE_MEM field B, the register whose word is stored (30_encoding.md R85). -/
def fieldWriteMemB : BitField := ⟨10, 8, .register⟩
/-- WRITE_MEM field C, the register that holds the address (30_encoding.md R85). -/
def fieldWriteMemC : BitField := ⟨13, 11, .register⟩
/-- SHIFT_RIGHT field B, the register whose word is shifted (30_encoding.md R86). -/
def fieldShiftRightB : BitField := ⟨10, 8, .register⟩
/-- SHIFT_RIGHT field C, the unsigned shift amount (30_encoding.md R86). -/
def fieldShiftRightC : BitField := ⟨33, 11, .unsigned⟩
/-- SHIFT_RIGHT field D, the signed address offset (30_encoding.md R86). -/
def fieldShiftRightD : BitField := ⟨46, 34, .signed⟩
/-- SHIFT_RIGHT field E, the base register of the destination address (30_encoding.md R86). -/
def fieldShiftRightE : BitField := ⟨49, 47, .register⟩

/-- 30_encoding.md R83. -/
def layoutLoadConst : Layout := ⟨234, 3, [fieldLoadConstB, fieldLoadConstC], []⟩
/-- 30_encoding.md R84. -/
def layoutReadMem : Layout :=
  ⟨102, 4, [fieldReadMemB, fieldReadMemC, fieldReadMemD], [(31, 27)]⟩
/-- 30_encoding.md R85. -/
def layoutWriteMem : Layout := ⟨90, 2, [fieldWriteMemB, fieldWriteMemC], [(15, 14)]⟩
/-- 30_encoding.md R86. -/
def layoutShiftRight : Layout :=
  ⟨224, 7, [fieldShiftRightB, fieldShiftRightC, fieldShiftRightD, fieldShiftRightE], [(55, 50)]⟩

/-- The tag of the four-variant union (30_encoding.md R80, R91). -/
inductive Variant where
  | loadConst
  | readMem
  | writeMem
  | shiftRight
deriving DecidableEq, Repr

/-- The row of each variant. -/
def Variant.layout (v : Variant) : Layout :=
  match v with
  | .loadConst => layoutLoadConst
  | .readMem => layoutReadMem
  | .writeMem => layoutWriteMem
  | .shiftRight => layoutShiftRight

/-- Which variant an opcode byte selects: a flat map keyed by the whole byte (30_encoding.md R96);
no other byte selects any (R97). -/
def variantOf (op : Byte) : Option Variant :=
  if op = layoutLoadConst.opcode then some .loadConst
  else if op = layoutReadMem.opcode then some .readMem
  else if op = layoutWriteMem.opcode then some .writeMem
  else if op = layoutShiftRight.opcode then some .shiftRight
  else none

/-- `sizeOf` of 30_encoding.md R101: the length in bytes, a function of the opcode byte alone. -/
def lengthOf (op : Byte) : Option Nat := (variantOf op).map (fun v => v.layout.bytes)

/-! ## BitField extraction (30_encoding.md R82, R87, R89, R90) -/

/-- The little-endian accumulator: byte `i` contributes bits `[8*i, 8*i+7]` (20_memory.md R54, R76). -/
def accumulate (bytes : List Byte) : Nat :=
  match bytes with
  | [] => 0
  | b :: rest => b.toNat + 2 ^ 8 * accumulate rest

/-- `raw = (acc >> lo) & ((1 << w) - 1)` (30_encoding.md R87). -/
def BitField.extract (f : BitField) (acc : Nat) : Nat := (acc >>> f.lo) &&& ((1 <<< f.width) - 1)

/-- `sext_w`: if the top bit of the field is set, subtract `2^w` (00_scope.md R10; 30_encoding.md R90). -/
def signExtend (width raw : Nat) : Int :=
  if raw < 2 ^ (width - 1) then (raw : Int) else (raw : Int) - 2 ^ width

/-- A register field's operand, `zext_3(raw)` (30_encoding.md R89). -/
def BitField.register (f : BitField) (acc : Nat) : RegIdx := Fin.ofNat 8 (f.extract acc)

/-- A signed field's operand (30_encoding.md R89, R90). -/
def BitField.signedValue (f : BitField) (acc : Nat) : Int := signExtend f.width (f.extract acc)

/-- An unsigned field's operand, `zext_w(raw)` (30_encoding.md R89). -/
def BitField.unsignedValue (f : BitField) (acc : Nat) : Int := (f.extract acc : Int)

/-- The decoded instruction of a variant and an accumulator (30_encoding.md R91). -/
def instrOf (v : Variant) (acc : Nat) : Instr :=
  match v with
  | .loadConst => .loadConst (fieldLoadConstB.register acc) (fieldLoadConstC.signedValue acc)
  | .readMem =>
    .readMem (fieldReadMemB.signedValue acc) (fieldReadMemC.register acc)
      (fieldReadMemD.register acc)
  | .writeMem => .writeMem (fieldWriteMemB.register acc) (fieldWriteMemC.register acc)
  | .shiftRight =>
    .shiftRight (fieldShiftRightB.register acc) (fieldShiftRightC.unsignedValue acc)
      (fieldShiftRightD.signedValue acc) (fieldShiftRightE.register acc)

/-! ## The decoder (40_fetch_decode_dispatch.md R135) -/

/-- Why the decoder gives no instruction. -/
inductive DecodeFailure where
  /-- There is no byte to read as the opcode: outside the decoder's domain
  (40_fetch_decode_dispatch.md R135, decision D18). -/
  | noByte
  /-- `UnknownOpcode(op)`: the byte is none of the four opcodes (30_encoding.md R97). -/
  | unknownOpcode (op : Byte)
  /-- `TruncatedInstruction(op)`: fewer bytes remain than the opcode's length (30_encoding.md R100). -/
  | truncatedInstruction (op : Byte)
deriving DecidableEq, Repr

/-- Decode the instruction at the head of `bytes`, the program bytes from the offset on. Answers the
instruction and `bytesConsumed`. The opcode is looked up before the truncation test, since the
length is not known before it (40_fetch_decode_dispatch.md R124 to R126, R135). -/
def decode (bytes : List Byte) : Except DecodeFailure (Instr × Nat) :=
  match bytes with
  | [] => .error .noByte
  | op :: rest =>
    match variantOf op with
    | none => .error (.unknownOpcode op)
    | some v =>
      if (op :: rest).length < v.layout.bytes then .error (.truncatedInstruction op)
      else .ok (instrOf v (accumulate ((op :: rest).take v.layout.bytes)), v.layout.bytes)

/-- `decode(buffer, offset)` of 40_fetch_decode_dispatch.md R135. -/
def decodeAt (buffer : List Byte) (offset : Nat) : Except DecodeFailure (Instr × Nat) :=
  decode (buffer.drop offset)

/-- The `n` low bytes of a number, least significant first: byte `i` is `(acc >> (8*i)) & 0xFF`
(30_encoding.md R103). -/
def leBytes (n acc : Nat) : List Byte :=
  match n with
  | 0 => []
  | n + 1 => BitVec.ofNat 8 acc :: leBytes n (acc >>> 8)

/-- The length in bytes of the longest instruction, SHIFT_RIGHT's (30_encoding.md R80). -/
def maxInstrBytes : Nat := layoutShiftRight.bytes

/-- The bytes of an instruction whose bits are `w`, numbered as the opcode table numbers them (bit 0
the least significant bit of the first byte), every bit from `nbits` on being 0. -/
def tableWordBytes (nbits w : Nat) : List Byte := leBytes maxInstrBytes (w % 2 ^ nbits)

/-- The instruction this decoder reads from an instruction whose bits are `w`. -/
def decodeTableWord (nbits w : Nat) : Option Instr :=
  match decode (tableWordBytes nbits w) with
  | .ok (i, _) => some i
  | .error _ => none

/-! ## The reference encoder (30_encoding.md R103 to R105): software beside the block -/

/-- The row of an instruction. -/
def Instr.variant (i : Instr) : Variant :=
  match i with
  | .loadConst _ _ => .loadConst
  | .readMem _ _ _ => .readMem
  | .writeMem _ _ => .writeMem
  | .shiftRight _ _ _ _ => .shiftRight

/-- The opcode byte of an instruction (30_encoding.md R80). -/
def Instr.opcode (i : Instr) : Byte := i.variant.layout.opcode

/-- The length in bytes of an instruction (30_encoding.md R80). -/
def Instr.length (i : Instr) : Nat := i.variant.layout.bytes

/-- The operands as integers, in field order (30_encoding.md R109). -/
def Instr.operands (i : Instr) : List Int :=
  match i with
  | .loadConst reg const13 => [(reg.val : Int), const13]
  | .readMem offset13 dstReg baseReg => [offset13, (dstReg.val : Int), (baseReg.val : Int)]
  | .writeMem srcReg addrReg => [(srcReg.val : Int), (addrReg.val : Int)]
  | .shiftRight valReg shiftOperand offset13 baseReg =>
    [(valReg.val : Int), shiftOperand, offset13, (baseReg.val : Int)]

/-- The range policy of the encoder: an operand outside its field's range is rejected, never
truncated (30_encoding.md R104, decision D16). -/
def BitField.admits (f : BitField) (v : Int) : Bool :=
  match f.kind with
  | .register => decide (0 ≤ v ∧ v ≤ 7)
  | .signed => decide (InSigned13 v)
  | .unsigned => decide (InUnsigned23 v)

/-- `(value mod 2^w) << lo` (30_encoding.md R103). -/
def BitField.place (f : BitField) (v : Int) : Nat := (v % 2 ^ f.width).toNat <<< f.lo

/-- `acc = opcode + sum over operand fields of ((value mod 2^w) << lo)`; padding positions receive
nothing (30_encoding.md R103, R105). -/
def Layout.assemble (f : Layout) (operands : List Int) : Nat :=
  f.opcode.toNat + (List.zipWith BitField.place f.fields operands).sum

/-- Why the encoder gives no bytes. -/
inductive EncodeError where
  /-- The tag is not one of the four (30_encoding.md R103). -/
  | unknownOpcode
  /-- The row has not as many operands as the format has fields (30_encoding.md R110). -/
  | operandCount
  /-- "BitField overflow": an operand does not fit its field (30_encoding.md R104). -/
  | fieldOverflow
deriving DecidableEq, Repr

/-- Encode a row: an opcode byte and its positional operands in field order (30_encoding.md R103,
R108, R110). -/
def encodeRow (op : Byte) (operands : List Int) : Except EncodeError (List Byte) :=
  match variantOf op with
  | none => .error .unknownOpcode
  | some v =>
    if operands.length = v.layout.fields.length then
      if (List.zipWith BitField.admits v.layout.fields operands).all id then
        .ok (leBytes v.layout.bytes (v.layout.assemble operands))
      else .error .fieldOverflow
    else .error .operandCount

/-- The canonical bytes of an instruction, for a well-formed one (30_encoding.md R103, R105). -/
def Instr.bytes (i : Instr) : List Byte := leBytes i.length (i.variant.layout.assemble i.operands)

/-- `encode(instruction)` of 30_encoding.md R103: the row of the instruction, with the range policy
of R104. -/
def encode (i : Instr) : Except EncodeError (List Byte) := encodeRow i.opcode i.operands

/-- The bytes of the rows from row `k` on, or the first row that gets none and why: "identifies the
offending row; aborts assembly before any binary output is produced" (30_encoding.md R110). -/
def encodeRowsFrom (k : Nat) (rows : List (Byte × List Int)) :
    Except (Nat × EncodeError) (List Byte) :=
  match rows with
  | [] => .ok []
  | (op, operands) :: rest =>
    match encodeRow op operands, encodeRowsFrom (k + 1) rest with
    | .error e, _ => .error (k, e)
    | .ok _, .error e => .error e
    | .ok bytes, .ok more => .ok (bytes ++ more)

/-- A binary program: the concatenated encoded bytes of all rows in order, no header, no length before
them (30_encoding.md R111, R112). Rows are numbered from 0. -/
def encodeProgram (rows : List (Byte × List Int)) : Except (Nat × EncodeError) (List Byte) :=
  encodeRowsFrom 0 rows

/-! ## Padding (30_encoding.md R98, R107) -/

/-- `acc` with the bits `[hi:lo]` cleared. -/
def clearBits (acc : Nat) (range : Nat × Nat) : Nat :=
  acc - ((acc >>> range.2) &&& ((1 <<< (range.1 - range.2 + 1)) - 1)) <<< range.2

/-- The bytes of an instruction of format `f` with every padding bit cleared (30_encoding.md R107). -/
def Layout.clearPadding (f : Layout) (bytes : List Byte) : List Byte :=
  leBytes f.bytes (f.padding.foldl clearBits (accumulate bytes))

end Sys2Proof
end

