-- ==== Sys2Proof/Machine/Flags.lean ====
section
/-! DEFINITION. The hardware has no status flags, no condition codes and no predicate registers
(10_state.md R27). The one event a step can raise beside its architectural effect is defined here. -/

namespace Sys2Proof.Machine

/-- The event `diag_negshift` of a shift amount: raised exactly when the amount is negative
(10_state.md R27; 43_shift_right.md R183). It is an output of the step and stored nowhere. -/
def diagNegshift (amt : Int) : Bool := decide (amt < 0)

end Sys2Proof.Machine
end

