-- ==== Sys2Proof/Config.lean ====
section
/-! DEFINITION. The construction parameters of the block (00_scope.md R6, R8): what an instance fixes
and nothing changes while it exists (10_state.md R29). -/

namespace Sys2Proof

/-- MEM_SIZE, PROG_MAX and STEP_LIMIT (00_scope.md R6). The defaults are the spec's. -/
structure Config where
  /-- MEM_SIZE: the number of words of data memory. -/
  memSize : Nat := 65536
  /-- PROG_MAX: the largest program, in bytes, that program memory holds. -/
  progMax : Nat := 65536
  /-- STEP_LIMIT: the optional ceiling on executed instructions. -/
  stepLimit : Option Nat := none
deriving DecidableEq, Repr

/-- The instance with every parameter at the default of 00_scope.md R6. -/
def Config.default : Config := ⟨65536, 65536, none⟩

/-- The constraints of 00_scope.md R8 on a step ceiling: none, or a number below 2^32. -/
def Config.limitValid : Option Nat → Bool
  | none => true
  | some limit => decide (limit < 2 ^ 32)

/-- The constraints of 00_scope.md R8 on the parameters, but for the one on PROG_LEN, which is
checked where a program is given (State.build, Machine/Control.lean). -/
def Config.valid (c : Config) : Bool :=
  decide (1 ≤ c.memSize) && decide (c.memSize ≤ 2 ^ 31) &&
    decide (1 ≤ c.progMax) && decide (c.progMax ≤ 2 ^ 32) && Config.limitValid c.stepLimit

/-- PC_W = ceil(log2(PROG_MAX + 1)), the width of `pc` and `fpc` (00_scope.md R6; 10_state.md R24). -/
def Config.pcWidth (c : Config) : Nat := Nat.clog 2 (c.progMax + 1)

end Sys2Proof
end

