-- ==== Sys2Proof/Machine/State.lean ====
section
/-! DEFINITION. The state of the block as plain data (10_state.md), its reset value (10_state.md R43),
and the closed reasons for which a step can stop. -/

namespace Sys2Proof.Machine

/-- The run state (10_state.md R28). Codes 5 to 7 do not exist (93_implementation_defined.md U13). -/
inductive RunState where
  /-- Reset, not started. -/
  | ready
  /-- Taking steps. -/
  | running
  /-- Terminal: the end of the program was reached, the one success. -/
  | halted
  /-- Terminal: a fault was raised; the fault record says which. -/
  | faulted
  /-- Terminal: the step ceiling was reached. -/
  | stepLimited
deriving DecidableEq, Repr

/-- The fault cause (10_state.md R31; 60_exceptions.md R200). -/
inductive FaultCause where
  | none
  | unknownOpcode
  | truncatedInstruction
  | memoryBounds
deriving DecidableEq, Repr

/-- Data memory `DM` as its listed words, `(address, word)`. An address counts words
(20_memory.md R52, R55). The canonical form is Memory.wf (Machine/Ops.lean): addresses strictly rising,
no word equal to what an unlisted address reads as, which is the all-zero word of 10_state.md R43. -/
abbrev Memory := List (Nat × Word)

/-- Every piece of state the spec gives the block, and the parameters of its run. -/
structure State where
  /-- `x[0]` to `x[7]` (10_state.md R20). -/
  regs : Vector Word 8
  /-- `pc`, a byte address into program memory (10_state.md R24). -/
  pc : Nat
  /-- `run` (10_state.md R28). -/
  run : RunState
  /-- `steps`, the instructions decoded since reset (10_state.md R30). -/
  steps : Nat
  /-- `fcause` (10_state.md R31). -/
  fcause : FaultCause
  /-- `fpc`, the address of the instruction that faulted (10_state.md R32). -/
  fpc : Nat
  /-- `fopcode`, the opcode byte of the instruction that faulted (10_state.md R33). -/
  fopcode : Byte
  /-- `faddr`, the effective address that failed the check (10_state.md R34). -/
  faddr : Int
  /-- `DM` (10_state.md R36). -/
  mem : Memory
  /-- `PM[0 .. PROG_LEN - 1]`; its length is PROG_LEN (10_state.md R37; 20_memory.md R51). -/
  prog : List Byte
  /-- MEM_SIZE, PROG_MAX, STEP_LIMIT (00_scope.md R6): no instruction and no host move changes them. -/
  cfg : Config
deriving DecidableEq, Repr

/-- PROG_LEN (00_scope.md R6). -/
def State.progLen (s : State) : Nat := s.prog.length

/-- The block right after reset, with these parameters and this program memory
(10_state.md R43; 70_reset_and_hazards.md R240, R242). -/
def State.afterReset (cfg : Config) (prog : List Byte) : State where
  regs := Vector.replicate 8 0
  pc := 0
  run := .ready
  steps := 0
  fcause := .none
  fpc := 0
  fopcode := 0
  faddr := 0
  mem := []
  prog := prog
  cfg := cfg

/-- The machine right after reset: the table of 10_state.md R43 on the instance with the spec's default
parameters. The program memory, which the spec leaves unspecified until the host first loads it, is
empty here: DESIGN CHOICE, log entry 3. -/
def State.reset : State := State.afterReset Config.default []

/-- Why the machine takes no step: in these run states the spec gives it none
(40_fetch_decode_dispatch.md R134). Raised by `step` alone; no instruction raises any. Each is safe:
the hardware does nothing there either (log entry 5). -/
inductive Fault where
  /-- `run = Ready`: only `start`, reset and program loading act. Raised by `step`. Safe. -/
  | notStarted
  /-- `run = Halted`, terminal. Raised by `step`. Safe. -/
  | halted
  /-- `run = Faulted`, terminal. Raised by `step`. Safe. -/
  | faulted
  /-- `run = StepLimited`, terminal. Raised by `step`. Safe. -/
  | stepLimited
deriving DecidableEq, Repr

/-- What the model gives no result for. -/
inductive Refusal where
  /-- An instruction without its meaning yet, by its mnemonic. Raised by a refused arm of `exec`; no arm
  of this model is one. Safe. -/
  | notModelled (mnemonic : String)
  /-- A step with `pc` beyond the end of the program, which no run reaches: there is no byte to decode
  (40_fetch_decode_dispatch.md R135, D18). Raised by `step`. Safe. -/
  | decodePastEnd
  /-- A program load while `run` is not `Ready` (70_reset_and_hazards.md R248). Raised by the host move
  `load`. Safe. -/
  | loadNotReady
  /-- A program longer than PROG_MAX cannot be loaded (70_reset_and_hazards.md R248). Raised by the host
  move `load` and by `State.build`. Safe. -/
  | programTooLong
  /-- Parameters that break a constraint of 00_scope.md R8. Raised by `State.build`. Safe. -/
  | badParameters
  /-- A host read while `run = Running` (10_state.md R41; 20_memory.md R69). Raised by the host reads.
  Safe. -/
  | readWhileRunning
  /-- A host read of data memory outside `[0, MEM_SIZE)` (70_reset_and_hazards.md R251). Raised by the
  host reads. Safe. -/
  | readOutOfRange
deriving DecidableEq, Repr

end Sys2Proof.Machine
end

