-- ==== Sys2Proof/Machine/Ops.lean ====
section
/-! DEFINITION. The named operations over registers and memory, and fault entry
(10_state.md R22; 20_memory.md R65, R74, R75; 60_exceptions.md R211). -/

namespace Sys2Proof.Machine

/-! ## Registers -/

/-- `x[r]` (00_scope.md R12). No register is hard-wired (10_state.md R21). -/
def readReg (s : State) (r : RegIdx) : Word := s.regs.get r

/-- `x[r] <- w` (00_scope.md R12). -/
def writeReg (s : State) (r : RegIdx) (w : Word) : State :=
  { s with regs := s.regs.set r.val w r.isLt }

/-! ## Data memory as data -/

/-- The word at an address; an unlisted address reads as the all-zero word it holds since reset
(10_state.md R43; 60_exceptions.md R204 (f)). -/
def Memory.read (m : Memory) (a : Nat) : Word :=
  match m with
  | [] => 0
  | (b, v) :: rest => if a = b then v else Memory.read rest a

/-- Replace the word at an address, keeping the canonical form: writing the all-zero word removes the
entry. -/
def Memory.write (m : Memory) (a : Nat) (w : Word) : Memory :=
  match m with
  | [] => if w = 0 then [] else [(a, w)]
  | (b, v) :: rest =>
    if a < b then (if w = 0 then (b, v) :: rest else (a, w) :: (b, v) :: rest)
    else if a = b then (if w = 0 then rest else (a, w) :: rest)
    else (b, v) :: Memory.write rest a w

/-- The canonical form of a memory whose addresses are at least `lo`. -/
def Memory.wfFrom (lo : Nat) (m : Memory) : Bool :=
  match m with
  | [] => true
  | (a, w) :: rest => decide (lo ≤ a) && decide (w ≠ 0) && Memory.wfFrom (a + 1) rest

/-- The canonical form: addresses strictly rising, no entry equal to the all-zero word. -/
def Memory.wf (m : Memory) : Bool := Memory.wfFrom 0 m

/-- Every listed address is one of `0 .. size - 1` (20_memory.md R52). -/
def Memory.inside (size : Nat) (m : Memory) : Bool := m.all (fun entry => decide (entry.1 < size))

/-! ## The bounds checker and the data port -/

/-- `InBounds(addr)`: exactly when `0 <= addr < MEM_SIZE` (20_memory.md R65). -/
abbrev InBounds (cfg : Config) (addr : Int) : Prop := 0 ≤ addr ∧ addr < (cfg.memSize : Int)

/-- `MemRead(addr, 1)`: the word, or nothing where the bounds check fails and the caller raises
`MemoryBounds(addr)` (20_memory.md R74). -/
def memRead (s : State) (addr : Int) : Option Word :=
  if InBounds s.cfg addr then some (s.mem.read addr.toNat) else none

/-- `MemWrite(addr, 1, w)`: the state after the write, or nothing where the bounds check fails and the
caller raises `MemoryBounds(addr)` (20_memory.md R75). -/
def memWrite (s : State) (addr : Int) (w : Word) : Option State :=
  if InBounds s.cfg addr then some { s with mem := s.mem.write addr.toNat w } else none

/-! ## The advance -/

/-- `pc <- pc + n; steps <- steps + 1`, after a successful decode and before the semantics
(40_fetch_decode_dispatch.md R127, R133). -/
def advance (n : Nat) (s : State) : State := { s with pc := s.pc + n, steps := s.steps + 1 }

/-! ## Fault entry. There is no return from a fault (60_exceptions.md R216, R217). -/

/-- The three faults and the information they carry beside the opcode (00_scope.md R14). -/
inductive Raised where
  | unknownOpcode
  | truncatedInstruction
  | memoryBounds (addr : Int)
deriving DecidableEq, Repr

/-- The cause a fault records (60_exceptions.md R200). -/
def raisedCause (f : Raised) : FaultCause :=
  match f with
  | .unknownOpcode => .unknownOpcode
  | .truncatedInstruction => .truncatedInstruction
  | .memoryBounds _ => .memoryBounds

/-- What a fault leaves in `faddr`: the address for `MemoryBounds`, the old value otherwise
(60_exceptions.md R200, R211). -/
def raisedAddr (f : Raised) (old : Int) : Int :=
  match f with
  | .unknownOpcode => old
  | .truncatedInstruction => old
  | .memoryBounds addr => addr

/-- `raise F(info)` at the instruction whose opcode byte `op` stands at `ipc`: the fault record is
written, `run <- Faulted`, nothing else changes and control goes nowhere (60_exceptions.md R211). -/
def raiseFault (f : Raised) (ipc : Nat) (op : Byte) (s : State) : State :=
  { s with
    fcause := raisedCause f
    fpc := ipc
    fopcode := op
    faddr := raisedAddr f s.faddr
    run := .faulted }

end Sys2Proof.Machine
end

