-- ==== Sys2Proof/Machine/Operands.lean ====
section
/-! DEFINITION. How words are read as numbers and numbers become words, the shifter, and the two
addressing modes (00_scope.md R10, R15; 42_memory_access.md R162, R163; 43_shift_right.md R181). -/

namespace Sys2Proof.Machine

/-- `uint(w)` (00_scope.md R10). -/
def uint (w : Word) : Nat := w.toNat

/-- `sint(w)`: `uint(w)` where bit 31 is 0, `uint(w) - 2^32` otherwise (00_scope.md R10). -/
def sint (w : Word) : Int := if w.getLsbD 31 then (w.toNat : Int) - 2 ^ 32 else (w.toNat : Int)

/-- `to32(n)`: the word `w` with `uint(w) = n mod 2^32` (00_scope.md R10). -/
def to32 (n : Int) : Word := BitVec.ofNat 32 (n % 2 ^ 32).toNat

/-- The clamp of a negative amount to 0: "explicit, intentional", not a fault
(00_scope.md R15; 43_shift_right.md R183). -/
def clampAmount (amt : Int) : Nat := if diagNegshift amt then 0 else amt.toNat

/-- `LSR32(w, amt)`: a logical right shift that fills with 0; an amount of 32 or more gives 0, a
negative one is taken as 0 (00_scope.md R15). -/
def lsr32 (w : Word) (amt : Int) : Word :=
  if clampAmount amt ≤ 31 then to32 (uint w >>> clampAmount amt : Nat) else 0

/-- The shift amount of SHIFT_RIGHT: the value of its field C, an immediate (43_shift_right.md R181,
decision D5). -/
def shiftAmount (shiftOperand : Int) : Int := shiftOperand

/-- `EA(r, off) = sint(x[r]) + off`, exact, never reduced (42_memory_access.md R162, decision D4). -/
def effectiveAddress (s : State) (base : RegIdx) (off : Int) : Int := sint (readReg s base) + off

/-- The effective address of an instruction's one data access, where it makes one: base plus signed
offset, or register indirect for WRITE_MEM, which has no offset (42_memory_access.md R162, R163). -/
def accessAddress (i : Instr) (s : State) : Option Int :=
  match i with
  | .loadConst _ _ => none
  | .readMem offset13 _ baseReg => some (effectiveAddress s baseReg offset13)
  | .writeMem _ addrReg => some (effectiveAddress s addrReg 0)
  | .shiftRight _ _ offset13 baseReg => some (effectiveAddress s baseReg offset13)

end Sys2Proof.Machine
end

