-- ==== Sys2Proof/Machine/LoadConst.lean ====
section
/-! DEFINITION. LOAD_CONST (41_load_const.md). A meaning is phases 6 and 7 of a step: the advance, then
the instruction's own effect (40_fetch_decode_dispatch.md R120). -/

namespace Sys2Proof.Machine

/-- LOAD_CONST: `x[B] <- to32(C)`; it makes no memory access and cannot fault (41_load_const.md R150). -/
def execLoadConst (reg : RegIdx) (const13 : Int) (s : State) :
    Host.Outcome State Fault Refusal :=
  .next (writeReg (advance layoutLoadConst.bytes s) reg (to32 const13))

end Sys2Proof.Machine
end

