-- ==== Sys2Proof/Machine/MemoryAccess.lean ====
section
/-! DEFINITION. READ_MEM and WRITE_MEM (42_memory_access.md). The bounds check comes before the access
and before any write-back (20_memory.md R66; 40_fetch_decode_dispatch.md R132). -/

namespace Sys2Proof.Machine

/-- READ_MEM: `addr = sint(x[D]) + B`, bounds check, `x[C] <- DM[addr]`; out of bounds it raises
`MemoryBounds(addr)` and writes no register (42_memory_access.md R160). -/
def execReadMem (offset13 : Int) (dstReg baseReg : RegIdx) (s : State) :
    Host.Outcome State Fault Refusal :=
  let addr := effectiveAddress s baseReg offset13
  let s' := advance layoutReadMem.bytes s
  match memRead s' addr with
  | some w => .next (writeReg s' dstReg w)
  | none => .next (raiseFault (.memoryBounds addr) s.pc layoutReadMem.opcode s')

/-- WRITE_MEM: `addr = sint(x[C])`, bounds check, `DM[addr] <- x[B]`; out of bounds it raises
`MemoryBounds(addr)` and writes nothing (42_memory_access.md R161). -/
def execWriteMem (srcReg addrReg : RegIdx) (s : State) : Host.Outcome State Fault Refusal :=
  let addr := effectiveAddress s addrReg 0
  let s' := advance layoutWriteMem.bytes s
  match memWrite s' addr (readReg s srcReg) with
  | some t => .next t
  | none => .next (raiseFault (.memoryBounds addr) s.pc layoutWriteMem.opcode s')

end Sys2Proof.Machine
end

