-- ==== Sys2Proof/Machine/ShiftRight.lean ====
section
/-! DEFINITION. SHIFT_RIGHT (43_shift_right.md). -/

namespace Sys2Proof.Machine

/-- SHIFT_RIGHT: `result = LSR32(x[B], C)`, `addr = sint(x[E]) + D`, bounds check,
`DM[addr] <- result`; out of bounds it raises `MemoryBounds(addr)` and writes nothing. No register is
written (43_shift_right.md R180, R181, R182). -/
def execShiftRight (valReg : RegIdx) (shiftOperand offset13 : Int) (baseReg : RegIdx) (s : State) :
    Host.Outcome State Fault Refusal :=
  let result := lsr32 (readReg s valReg) (shiftAmount shiftOperand)
  let addr := effectiveAddress s baseReg offset13
  let s' := advance layoutShiftRight.bytes s
  match memWrite s' addr result with
  | some t => .next t
  | none => .next (raiseFault (.memoryBounds addr) s.pc layoutShiftRight.opcode s')

end Sys2Proof.Machine
end

