-- ==== Sys2Proof/Machine/Dispatch.lean ====
section
/-! DEFINITION. The four-way execute dispatch (40_fetch_decode_dispatch.md R131). -/

namespace Sys2Proof.Machine

def exec (i : Instr) (s : State) : Host.Outcome State Fault Refusal :=
  match i with
  | .loadConst reg const13 => Sys2Proof.Machine.execLoadConst reg const13 s
  | .readMem offset13 dstReg baseReg => Sys2Proof.Machine.execReadMem offset13 dstReg baseReg s
  | .writeMem srcReg addrReg => Sys2Proof.Machine.execWriteMem srcReg addrReg s
  | .shiftRight valReg shiftOperand offset13 baseReg => Sys2Proof.Machine.execShiftRight valReg shiftOperand offset13 baseReg s

end Sys2Proof.Machine
end

