-- ==== Sys2Proof/Machine/Fetch.lean ====
section
/-! DEFINITION. Fetching, and the sequence of tests and phases of one step while `run = Running`
(20_memory.md R76; 40_fetch_decode_dispatch.md R120 to R127; 60_exceptions.md R208, R210). -/

namespace Sys2Proof.Machine

/-- `Fetch(a, n)`: the little-endian number of the `n` program bytes at `a` (20_memory.md R76). -/
def fetch (s : State) (a n : Nat) : Nat := accumulate ((s.prog.drop a).take n)

/-- Phases 3 to 5 of a step: the decoder at `pc` (40_fetch_decode_dispatch.md R120, R135). -/
def fetchDecode (s : State) : Except DecodeFailure (Instr × Nat) := decodeAt s.prog s.pc

/-- The end of the program (40_fetch_decode_dispatch.md R122). -/
abbrev AtEnd (s : State) : Prop := s.pc = s.progLen

/-- The step ceiling is reached (40_fetch_decode_dispatch.md R123). -/
abbrev AtLimit (s : State) : Prop := s.cfg.stepLimit = some s.steps

/-- One step of a running machine: end of program, step ceiling, opcode lookup, truncation test, and
then `execute`, which is the advance and the dispatch. The order is that of the rule
(40_fetch_decode_dispatch.md R120; 60_exceptions.md R208, R210). -/
def cycle (execute : Instr → State → Host.Outcome State Fault Refusal) (s : State) :
    Host.Outcome State Fault Refusal :=
  if AtEnd s then .next { s with run := .halted }
  else if AtLimit s then .next { s with run := .stepLimited }
  else
    match fetchDecode s with
    | .ok (i, _) => execute i s
    | .error (.unknownOpcode op) => .next (raiseFault .unknownOpcode s.pc op s)
    | .error (.truncatedInstruction op) => .next (raiseFault .truncatedInstruction s.pc op s)
    | .error .noByte => .refused .decodePastEnd

/-- Program memory with `bytes` at address `a`, the rest as it was; a gap below `a` is filled with 0.
It stands for the host's program load (70_reset_and_hazards.md R248). -/
def placeBytes (prog : List Byte) (a : Nat) (bytes : List Byte) : List Byte :=
  prog.take a ++ List.replicate (a - prog.length) 0 ++ bytes ++ prog.drop (a + bytes.length)

/-- Parameters whose step ceiling does not stop the very next step. -/
def liftLimit (s : State) : Config :=
  if AtLimit s then { s.cfg with stepLimit := none } else s.cfg

end Sys2Proof.Machine
end

