-- ==== Sys2Proof/Machine/Step.lean ====
section
/-! DEFINITION. The one transition of the machine (40_fetch_decode_dispatch.md R120, R134). -/

namespace Sys2Proof.Machine

/-- One step. It is defined exactly when `run = Running`; in every other run state the machine has no
step (40_fetch_decode_dispatch.md R120, R134). -/
def step (s : State) : Host.Outcome State Fault Refusal :=
  match s.run with
  | .ready => .fault .notStarted
  | .running => cycle exec s
  | .halted => .fault .halted
  | .faulted => .fault .faulted
  | .stepLimited => .fault .stepLimited

/-- The host's program load and start in one: the instruction whose bits are `w` (see
`tableWordBytes`) stored where the next step fetches, and the machine running. A step ceiling that
would stop that very step is lifted. Log entry 4. -/
def State.withFetchWord (s : State) (nbits w : Nat) : State :=
  { s with
    prog := placeBytes s.prog s.pc (tableWordBytes nbits w)
    run := .running
    cfg := liftLimit s }

end Sys2Proof.Machine
end

