-- ==== Sys2Proof/Machine/Events.lean ====
section
/-! DEFINITION. The output event of a step (10_state.md R27, R41 (d); 43_shift_right.md R183). -/

namespace Sys2Proof.Machine

/-- Whether an instruction raises `diag_negshift` when it executes (43_shift_right.md R180, R183). -/
def instrDiag (i : Instr) : Bool :=
  match i with
  | .loadConst _ _ => false
  | .readMem _ _ _ => false
  | .writeMem _ _ => false
  | .shiftRight _ shiftOperand _ _ => diagNegshift (shiftAmount shiftOperand)

/-- Whether the step from this state raises `diag_negshift`: it executes an instruction that does. -/
def stepDiag (s : State) : Bool :=
  match s.run with
  | .ready => false
  | .running =>
    if AtEnd s ∨ AtLimit s then false
    else
      match fetchDecode s with
      | .ok (i, _) => instrDiag i
      | .error _ => false
  | .halted => false
  | .faulted => false
  | .stepLimited => false

end Sys2Proof.Machine
end

