-- ==== Sys2Proof/Machine/Control.lean ====
section
/-! DEFINITION. The block's control inputs and status outputs: what its surroundings can do to it and
see of it (10_state.md R41, R42; 70_reset_and_hazards.md R240 to R251). -/

namespace Sys2Proof.Machine

/-! ## Instantiation -/

/-- An instance with these parameters and this program, right after reset. The constraints of
00_scope.md R8 are checked. -/
def State.build (cfg : Config) (prog : List Byte) : Host.Outcome State Fault Refusal :=
  if cfg.valid = true then
    if prog.length ≤ cfg.progMax then .next (State.afterReset cfg prog)
    else .refused .programTooLong
  else .refused .badParameters

/-! ## Control inputs -/

/-- The moves of the host (10_state.md R41 (c)). It has no other: it cannot write registers or data
memory (70_reset_and_hazards.md R250). -/
inductive HostMove where
  /-- The input `reset` (70_reset_and_hazards.md R240). -/
  | reset
  /-- The program-load path (70_reset_and_hazards.md R248). -/
  | load (bytes : List Byte)
  /-- The input `start` (40_fetch_decode_dispatch.md R121). -/
  | start
deriving DecidableEq, Repr

/-- `reset`: every piece of state at its reset value, in every run state; the program memory is not
touched (70_reset_and_hazards.md R240, R242, R243). -/
def hostReset (s : State) : State := State.afterReset s.cfg s.prog

/-- `start`: acts only when `run = Ready` and changes `run` alone; ignored in any other run state
(40_fetch_decode_dispatch.md R121). -/
def hostStart (s : State) : State :=
  if s.run = .ready then { s with run := .running } else s

/-- Program load: only while `run = Ready`, only up to PROG_MAX bytes; the bytes are not validated
(70_reset_and_hazards.md R248). -/
def hostLoad (bytes : List Byte) (s : State) : Host.Outcome State Fault Refusal :=
  if s.run = .ready then
    if bytes.length ≤ s.cfg.progMax then .next { s with prog := bytes }
    else .refused .programTooLong
  else .refused .loadNotReady

/-- What a move of the host does. -/
def hostMove (m : HostMove) (s : State) : Host.Outcome State Fault Refusal :=
  match m with
  | .reset => .next (hostReset s)
  | .load bytes => hostLoad bytes s
  | .start => .next (hostStart s)

/-! ## Status outputs: codes and widths -/

/-- The 3-bit code of `run` (10_state.md R28). -/
def runCode (r : RunState) : BitVec 3 :=
  match r with
  | .ready => 0
  | .running => 1
  | .halted => 2
  | .faulted => 3
  | .stepLimited => 4

/-- The 2-bit code of `fcause` (10_state.md R31). -/
def causeCode (c : FaultCause) : BitVec 2 :=
  match c with
  | .none => 0
  | .unknownOpcode => 1
  | .truncatedInstruction => 2
  | .memoryBounds => 3

/-- The status outputs in their widths (10_state.md R24, R28, R30 to R34, R41 (d)). -/
structure Status (pcWidth : Nat) where
  run : BitVec 3
  pc : BitVec pcWidth
  steps : BitVec 32
  fcause : BitVec 2
  fpc : BitVec pcWidth
  fopcode : BitVec 8
  faddr : BitVec 33
  regs : Vector Word 8
deriving DecidableEq, Repr

/-- What the status outputs carry. -/
def statusOf (s : State) : Status s.cfg.pcWidth where
  run := runCode s.run
  pc := BitVec.ofNat s.cfg.pcWidth s.pc
  steps := BitVec.ofNat 32 s.steps
  fcause := causeCode s.fcause
  fpc := BitVec.ofNat s.cfg.pcWidth s.fpc
  fopcode := s.fopcode
  faddr := BitVec.ofInt 33 s.faddr
  regs := s.regs

/-- The host's read of the status outputs: only while `run != Running` (10_state.md R41 (d);
20_memory.md R69). -/
def hostReadStatus (s : State) : Host.Outcome (Status s.cfg.pcWidth) Fault Refusal :=
  if s.run = .running then .refused .readWhileRunning else .next (statusOf s)

/-- The host's read of `DM[lo], DM[lo+1], ..., DM[hi]` in rising address order, without side effect:
only while `run != Running`, only inside `[0, MEM_SIZE)` (10_state.md R42;
70_reset_and_hazards.md R251). DESIGN CHOICE, log entry 16: of a request with `lo > hi`, on which the
spec is silent, the bounds test looks at `hi` alone, and the answer is then the empty list. -/
def hostDump (lo hi : Nat) (s : State) : Host.Outcome (List Word) Fault Refusal :=
  if s.run = .running then .refused .readWhileRunning
  else if hi < s.cfg.memSize then
    .next ((List.range' lo (hi + 1 - lo)).map (fun a => s.mem.read a))
  else .refused .readOutOfRange

end Sys2Proof.Machine
end

