-- ==== Sys2Proof/Safety.lean ====
section
/-! DEFINITION. What a safe run is: the invariant of every state a run reaches, the reachable states,
and the words a run can ever hold (10_state.md R25, R30 to R34; 40_fetch_decode_dispatch.md R134;
41_load_const.md R151). -/

namespace Sys2Proof.Machine

/-- A terminal run state: no step leaves it, only reset does (40_fetch_decode_dispatch.md R134). -/
def RunState.terminal (r : RunState) : Bool :=
  match r with
  | .ready => false
  | .running => false
  | .halted => true
  | .faulted => true
  | .stepLimited => true

/-- The address at which the instruction after the first `k` ones starts, the program being cut into
instructions from its start, the only way to find instruction boundaries (30_encoding.md R101). -/
def boundary (prog : List Byte) (k : Nat) : Option Nat :=
  match k with
  | 0 => some 0
  | k + 1 =>
    match boundary prog k with
    | none => none
    | some a =>
      match decodeAt prog a with
      | .ok (_, n) => some (a + n)
      | .error _ => none

/-- The fault record explains the fault by the state it left (60_exceptions.md R200, R211, R213). -/
def RecordExplains (s : State) : Prop :=
  match s.fcause with
  | .none => s.fpc = 0 ∧ s.fopcode = 0 ∧ s.faddr = 0
  | .unknownOpcode =>
    decodeAt s.prog s.fpc = .error (.unknownOpcode s.fopcode) ∧ s.pc = s.fpc ∧ s.faddr = 0
  | .truncatedInstruction =>
    decodeAt s.prog s.fpc = .error (.truncatedInstruction s.fopcode) ∧ s.pc = s.fpc ∧ s.faddr = 0
  | .memoryBounds =>
    ∃ i n, decodeAt s.prog s.fpc = .ok (i, n) ∧ s.pc = s.fpc + n ∧ s.fopcode = i.opcode ∧
      accessAddress i s = some s.faddr ∧ ¬ InBounds s.cfg s.faddr

/-- What holds of every state a run reaches. -/
structure Inv (s : State) : Prop where
  /-- The parameters meet their constraints (00_scope.md R8). -/
  params : s.cfg.valid = true
  /-- The program fits its memory (00_scope.md R8). -/
  programFits : s.progLen ≤ s.cfg.progMax
  /-- `pc` is where the program, cut into `steps` instructions from its start, goes on
  (10_state.md R25, R30). -/
  pcBoundary : boundary s.prog s.steps = some s.pc
  /-- `steps <= STEP_LIMIT` (10_state.md R30). -/
  withinLimit : ∀ limit, s.cfg.stepLimit = some limit → s.steps ≤ limit
  /-- Data memory is in canonical form. -/
  memCanonical : s.mem.wf = true
  /-- Data memory lists no address outside `[0, MEM_SIZE)` (20_memory.md R52). -/
  memInside : s.mem.inside s.cfg.memSize = true
  /-- `fcause != 0` exactly when `run = Faulted` (10_state.md R31). -/
  causeIffFaulted : s.fcause ≠ .none ↔ s.run = .faulted
  /-- The fault record is that of the fault, and 0 where there is none. -/
  record : RecordExplains s
  /-- `Halted` is the end of the program (40_fetch_decode_dispatch.md R122). -/
  haltedAtEnd : s.run = .halted → AtEnd s
  /-- `StepLimited` is the ceiling, before the end (40_fetch_decode_dispatch.md R123). -/
  limitedAtLimit : s.run = .stepLimited → AtLimit s ∧ ¬ AtEnd s
  /-- `Ready` is the state reset leaves (10_state.md R43; 70_reset_and_hazards.md R250). -/
  readyIsReset : s.run = .ready → s = State.afterReset s.cfg s.prog

/-- The states a block reaches from its instantiation by its own steps and the host's moves. -/
inductive Reachable : State → Prop where
  | built (cfg : Config) (prog : List Byte) (s : State) (h : State.build cfg prog = .next s) :
      Reachable s
  | stepped (s t : State) (hs : Reachable s) (h : step s = .next t) : Reachable t
  | moved (s t : State) (m : HostMove) (hs : Reachable s) (h : hostMove m s = .next t) : Reachable t

/-- The words a program can make: a LOAD_CONST constant shifted right by some amount; the all-zero word
is the constant 0 (41_load_const.md R151). -/
def Makeable (w : Word) : Prop :=
  ∃ (k : Int) (amt : Nat), InSigned13 k ∧ w = lsr32 (to32 k) (amt : Int)

/-- Every register and every word of data memory holds a word a program can make
(41_load_const.md R151). -/
def AllMakeable (s : State) : Prop :=
  (∀ r, Makeable (readReg s r)) ∧ (∀ a, Makeable (s.mem.read a))

/-! ## What a frame keeps -/

/-- Every register reads as before. -/
def SameRegs (s t : State) : Prop := ∀ r, readReg t r = readReg s r

/-- Every word of data memory reads as before. -/
def SameData (s t : State) : Prop := ∀ a, t.mem.read a = s.mem.read a

/-- The fault record is as before. -/
def SameRecord (s t : State) : Prop :=
  t.fcause = s.fcause ∧ t.fpc = s.fpc ∧ t.fopcode = s.fopcode ∧ t.faddr = s.faddr

/-- The program and the parameters are as before. -/
def SameProgram (s t : State) : Prop := t.prog = s.prog ∧ t.cfg = s.cfg

/-- `pc` is past an instruction of `n` bytes and `steps` has counted it. -/
def Counted (n : Nat) (s t : State) : Prop := t.pc = s.pc + n ∧ t.steps = s.steps + 1

/-- `t` is `s` after the `MemoryBounds(addr)` fault of an instruction with opcode byte `op`: the fault
record is that of the instruction at the `pc` of `s`, no register and no word of memory has changed
(60_exceptions.md R203, R211, R212). -/
def BoundsFaulted (op : Byte) (addr : Int) (s t : State) : Prop :=
  t.run = .faulted ∧ t.fcause = .memoryBounds ∧ t.fpc = s.pc ∧ t.fopcode = op ∧ t.faddr = addr ∧
    SameRegs s t ∧ SameData s t ∧ SameProgram s t

/-! ## The spec's tables, written out for the statements -/

/-- The encoder's accumulator of an instruction, written out from the layouts of 30_encoding.md R83 to
R86: the opcode plus each operand modulo `2^w` at its low bit. -/
def writtenOutAccumulator (i : Instr) : Int :=
  match i with
  | .loadConst reg const13 => 234 + reg.val % 8 * 2 ^ 8 + const13 % 8192 * 2 ^ 11
  | .readMem offset13 dstReg baseReg =>
    102 + offset13 % 8192 * 2 ^ 8 + dstReg.val % 8 * 2 ^ 21 + baseReg.val % 8 * 2 ^ 24
  | .writeMem srcReg addrReg => 90 + srcReg.val % 8 * 2 ^ 8 + addrReg.val % 8 * 2 ^ 11
  | .shiftRight valReg shiftOperand offset13 baseReg =>
    224 + valReg.val % 8 * 2 ^ 8 + shiftOperand % 8388608 * 2 ^ 11 + offset13 % 8192 * 2 ^ 34 +
      baseReg.val % 8 * 2 ^ 47

/-- The registers an instruction reads, from the table of 10_state.md R22. -/
def registersRead (i : Instr) : List RegIdx :=
  match i with
  | .loadConst _ _ => []
  | .readMem _ _ baseReg => [baseReg]
  | .writeMem srcReg addrReg => [srcReg, addrReg]
  | .shiftRight valReg _ _ baseReg => [valReg, baseReg]

/-- The register an instruction writes, from the table of 10_state.md R22. -/
def registerWritten (i : Instr) : Option RegIdx :=
  match i with
  | .loadConst reg _ => some reg
  | .readMem _ dstReg _ => some dstReg
  | .writeMem _ _ => none
  | .shiftRight _ _ _ _ => none

/-! ## Programs as lists of instructions -/

/-- The result of executing a list of instructions one after the other, stopping at a fault or a
refusal. -/
def execAll (is : List Instr) (s : State) : Host.Outcome State Fault Refusal :=
  match is with
  | [] => .next s
  | i :: rest =>
    match exec i s with
    | .next t => execAll rest t
    | .fault r => .fault r
    | .refused r => .refused r

end Sys2Proof.Machine
end

