-- ==== Sys2Proof/Certificates/Slice0/Obligations.lean ====
section
/-! DEFINITION. The statements for the provers. Each docstring names the rule of spec/ it states; a
clause that rests on a decision the spec marks as its own (92_eei_decisions.md D1 to D24) or on a log
entry of this model says so. -/

section

open Sys2Proof Sys2Proof.Machine

/-! ## Encoding -/

/-- Words written out by hand from the bit-layout table decode to the instruction they stand for: the
worked examples S1 to S4 of 95_test_vectors.md with the corrections of 90_conflicts.md C1, C2, and the
source's own bytes with a padding bit set (D8). -/
def Obligations.DecodesWrittenOutWords : Prop :=
  decode [0xEA, 0x3A, 0x0E] = .ok (.loadConst 2 455, 3) ∧
  decode [0xEA, 0x3A, 0x6E] = .ok (.loadConst 2 3527, 3) ∧
  decode [0x66, 0xE6, 0xC1, 0x01] = .ok (.readMem 486 6 1, 4) ∧
  decode [0x66, 0xE6, 0xC1, 0x81] = .ok (.readMem 486 6 1, 4) ∧
  decode [0x5A, 0x15] = .ok (.writeMem 5 2, 2) ∧
  decode [0xE0, 0x25, 0x0D, 0x00, 0x44, 0x89, 0x01] = .ok (.shiftRight 5 420 593 3, 7)

/-- 30_encoding.md R87: the raw value of a field at bits `[hi:lo]` is made of exactly those bits of the
accumulator, is below `2^w`, and depends on no other bit. -/
def Obligations.FieldsAreTheirBitsAlone : Prop :=
  ∀ (f : BitField) (acc : Nat),
    f.extract acc = (acc >>> f.lo) &&& ((1 <<< f.width) - 1) ∧
    f.extract acc < 2 ^ f.width ∧
    (∀ k, (f.extract acc).testBit k = (decide (k < f.width) && acc.testBit (f.lo + k))) ∧
    ∀ acc', (∀ k, f.lo ≤ k → k < f.lo + f.width → acc'.testBit k = acc.testBit k) →
      f.extract acc' = f.extract acc

/-- 30_encoding.md R90: the signed fields are exactly three, each 13 bits wide; for each the operand is
the raw value where it is below 4096 and the raw value minus 8192 otherwise, in `-4096 .. 4095`; every
other operand is the unsigned value of its field. -/
def Obligations.SignedFieldsExtend : Prop :=
  (∀ (v : Variant) (f : BitField), f ∈ v.layout.fields →
    (f.kind = .signed ↔ (v, f) ∈ [(Variant.loadConst, fieldLoadConstC),
      (Variant.readMem, fieldReadMemB), (Variant.shiftRight, fieldShiftRightD)])) ∧
  (∀ (v : Variant) (f : BitField), f ∈ v.layout.fields → f.kind = .signed →
    f.width = 13 ∧ ∀ acc : Nat,
      f.signedValue acc =
        (if f.extract acc < 4096 then (f.extract acc : Int) else (f.extract acc : Int) - 8192) ∧
      -4096 ≤ f.signedValue acc ∧ f.signedValue acc ≤ 4095) ∧
  (∀ (v : Variant) (acc : Nat), (instrOf v acc).operands =
    v.layout.fields.map (fun f =>
      if f.kind = .signed then f.signedValue acc else (f.extract acc : Int)))

/-- 30_encoding.md R88, which the spec marks as derived: the byte-level wiring of every field of the
four formats, for every value of the bytes. The fields are cut here as bit strings from the bytes, not
from the accumulator. -/
def Obligations.CrossByteWiring : Prop :=
  ∀ b1 b2 b3 b4 b5 b6 : Byte,
    decode [234, b1, b2] =
      .ok (.loadConst (b1.extractLsb' 0 3).toFin (b2 ++ b1.extractLsb' 3 5).toInt, 3) ∧
    decode [102, b1, b2, b3] =
      .ok (.readMem (b2.extractLsb' 0 5 ++ b1).toInt (b2.extractLsb' 5 3).toFin
        (b3.extractLsb' 0 3).toFin, 4) ∧
    decode [90, b1] =
      .ok (.writeMem (b1.extractLsb' 0 3).toFin (b1.extractLsb' 3 3).toFin, 2) ∧
    decode [224, b1, b2, b3, b4, b5, b6] =
      .ok (.shiftRight (b1.extractLsb' 0 3).toFin
        ((b4.extractLsb' 0 2 ++ b3 ++ b2 ++ b1.extractLsb' 3 5).toNat : Int)
        (b5.extractLsb' 0 7 ++ b4.extractLsb' 2 6).toInt
        (b6.extractLsb' 0 2 ++ b5.extractLsb' 7 1).toFin, 7)

/-- 30_encoding.md R103: the encoder's bytes of a well-formed instruction are those of the accumulator
`opcode + sum of ((value mod 2^w) << lo)`, as many as the opcode's length, byte `k` being
`(acc >> (8*k)) & 0xFF`. An opcode byte that is none of the four gets no bytes. -/
def Obligations.EncoderPlacesFields : Prop :=
  (∀ i : Instr, i.WellFormed → ∃ bytes, encode i = .ok bytes ∧ bytes.length = i.length ∧
    ∀ (k : Nat) (h : k < bytes.length),
      (bytes[k].toNat : Int) = writtenOutAccumulator i / 2 ^ (8 * k) % 256) ∧
  (∀ (op : Byte) (operands : List Int), op ≠ 234 → op ≠ 102 → op ≠ 90 → op ≠ 224 →
    encodeRow op operands = .error .unknownOpcode)

/-- 30_encoding.md R104, decision D16: the encoder rejects a register operand outside `0..7`, a signed
13-bit operand outside `-4096..4095` and a shift operand outside `0..8388607`, and accepts every other
row. Rows of a wrong operand count get no bytes (R110). -/
def Obligations.EncoderRangePolicy : Prop :=
  (∀ b c : Int, (∃ bytes, encodeRow 234 [b, c] = .ok bytes) ↔
    (0 ≤ b ∧ b ≤ 7) ∧ (-4096 ≤ c ∧ c ≤ 4095)) ∧
  (∀ b c d : Int, (∃ bytes, encodeRow 102 [b, c, d] = .ok bytes) ↔
    (-4096 ≤ b ∧ b ≤ 4095) ∧ (0 ≤ c ∧ c ≤ 7) ∧ (0 ≤ d ∧ d ≤ 7)) ∧
  (∀ b c : Int, (∃ bytes, encodeRow 90 [b, c] = .ok bytes) ↔ (0 ≤ b ∧ b ≤ 7) ∧ (0 ≤ c ∧ c ≤ 7)) ∧
  (∀ b c d e : Int, (∃ bytes, encodeRow 224 [b, c, d, e] = .ok bytes) ↔
    (0 ≤ b ∧ b ≤ 7) ∧ (0 ≤ c ∧ c ≤ 8388607) ∧ (-4096 ≤ d ∧ d ≤ 4095) ∧ (0 ≤ e ∧ e ≤ 7)) ∧
  (∀ (v : Variant) (operands : List Int), operands.length = v.layout.fields.length →
    ((∃ bytes, encodeRow v.layout.opcode operands = .ok bytes) ∨
      encodeRow v.layout.opcode operands = .error .fieldOverflow)) ∧
  (∀ (v : Variant) (operands : List Int), operands.length ≠ v.layout.fields.length →
    encodeRow v.layout.opcode operands = .error .operandCount)

/-- 30_encoding.md R106: for every opcode and every operand assignment within the declared field widths,
decoding the encoder's bytes, whatever bytes follow them, gives the instruction back, and the bytes
consumed are the instruction's length. -/
def Obligations.DecodeEncodeRoundTrip : Prop :=
  ∀ (i : Instr) (rest : List Byte), i.WellFormed →
    ∃ bytes, encode i = .ok bytes ∧ bytes.length = i.length ∧
      decode (bytes ++ rest) = .ok (i, i.length)

/-- 30_encoding.md R107, which the spec marks as derived: for any bytes that decode to `i`, the encoder's
bytes of `i` are those bytes with every padding bit cleared. -/
def Obligations.EncodeDecodeClearsPadding : Prop :=
  ∀ (bytes : List Byte) (i : Instr) (n : Nat), decode bytes = .ok (i, n) →
    i.WellFormed ∧ n = i.length ∧
      encode i = .ok (i.variant.layout.clearPadding (bytes.take n))

/-- 30_encoding.md R98, decision D8: padding bits change neither the decoded instruction nor its length,
and they alone are ignored: two byte strings of a defined opcode decode alike exactly when they agree
on every bit that is no padding bit. -/
def Obligations.PaddingAloneIsIgnored : Prop :=
  ∀ (v : Variant) (rest rest' : List Byte),
    rest.length + 1 = v.layout.bytes → rest'.length + 1 = v.layout.bytes →
    (decode (v.layout.opcode :: rest) = decode (v.layout.opcode :: rest') ↔
      ∀ k, k < 8 * v.layout.bytes → (∀ p ∈ v.layout.padding, ¬ (p.2 ≤ k ∧ k ≤ p.1)) →
        (accumulate (v.layout.opcode :: rest)).testBit k =
          (accumulate (v.layout.opcode :: rest')).testBit k)

/-- 20_memory.md R76: `Fetch(a, n)`, for an `n` of `2, 3, 4, 7` with `a + n <= PROG_LEN`, is
`PM[a] + PM[a+1] * 2^8 + ... + PM[a+n-1] * 2^(8*(n-1))`, a natural number below `2^(8n)`. -/
def Obligations.FetchIsLittleEndian : Prop :=
  ∀ (s : State) (a n : Nat), n ∈ [2, 3, 4, 7] → a + n ≤ s.progLen →
    fetch s a n = (∑ k ∈ Finset.range n, (s.prog.getD (a + k) 0).toNat * 2 ^ (8 * k)) ∧
    fetch s a n < 2 ^ (8 * n)

/-! ## The step -/

/-- 40_fetch_decode_dispatch.md R120: with `run = Running`, the program not ended and the ceiling not
reached, a step at bytes that decode to `i` is the execution of `i` at that state, whose own first act
is the advance past the bytes consumed (the model's arrangement: log entry 9). -/
def Obligations.StepRunsDecodedInstruction : Prop :=
  ∀ (s : State) (i : Instr) (n : Nat), s.run = .running → ¬ AtLimit s →
    decode (s.prog.drop s.pc) = .ok (i, n) →
    step s = exec i s ∧ n = i.length ∧ s.pc + n ≤ s.progLen ∧
      ∀ t, step s = .next t → Counted n s t

/-- 40_fetch_decode_dispatch.md R122: at the end of the program a step sets `run <- Halted` and nothing
else, whatever the ceiling; a program of length 0 halts on its first step with everything at its reset
value; no other step ends `Halted`; and no state that meets the invariant has `pc > PROG_LEN`. -/
def Obligations.HaltsExactlyAtEnd : Prop :=
  (∀ s : State, s.run = .running → s.pc = s.progLen → step s = .next { s with run := .halted }) ∧
  (∀ s : State, s.prog = [] →
    step (hostStart (hostReset s)) = .next { State.afterReset s.cfg [] with run := .halted }) ∧
  (∀ s t : State, s.run = .running → step s = .next t → t.run = .halted → s.pc = s.progLen) ∧
  (∀ s : State, Inv s → s.pc ≤ s.progLen)

/-- 40_fetch_decode_dispatch.md R123, decision D12: with the program not ended and `steps = STEP_LIMIT` a
step sets `run <- StepLimited` and nothing else, whatever the bytes at `pc`; no other step does. -/
def Obligations.CeilingStopsBeforeFetch : Prop :=
  (∀ s : State, s.run = .running → s.pc ≠ s.progLen → s.cfg.stepLimit = some s.steps →
    step s = .next { s with run := .stepLimited }) ∧
  (∀ s t : State, step s = .next t → t.run = .stepLimited →
    s.pc ≠ s.progLen ∧ s.cfg.stepLimit = some s.steps)

/-- 40_fetch_decode_dispatch.md R134: in `Halted`, `Faulted` and `StepLimited` the machine has no step and
nothing but reset changes the state; in `Ready` it has no step either. That the step answers a named
stop there is log entry 5; that a load is refused there by name is log entry 10. -/
def Obligations.NoStepOutsideRunning : Prop :=
  (∀ s : State, s.run = .ready → step s = .fault .notStarted) ∧
  (∀ s : State, s.run = .halted → step s = .fault .halted) ∧
  (∀ s : State, s.run = .faulted → step s = .fault .faulted) ∧
  (∀ s : State, s.run = .stepLimited → step s = .fault .stepLimited) ∧
  (∀ (s t : State) (m : HostMove), s.run.terminal = true → m ≠ .reset → hostMove m s = .next t →
    t = s)

/-- From `Running` with `pc` in the program or at its end exactly one outcome applies, a next state: the
machine is never stuck (93_implementation_defined.md, "Stuck versus fault"). Beyond the end, where no
run comes, there is no byte to decode and the step is refused (R135, decision D18, log entry 6). -/
def Obligations.RunningIsNeverStuck : Prop :=
  (∀ s : State, s.run = .running → s.pc ≤ s.progLen → ∃ t, step s = .next t) ∧
  (∀ s : State, s.run = .running → ¬ AtLimit s → s.progLen < s.pc →
    step s = .refused .decodePastEnd)

/-- 30_encoding.md R97 and 60_exceptions.md R201: a byte at `pc` that is none of 234, 102, 90, 224, in the
last place too, is an `UnknownOpcode` fault that reports the offset and the opcode, leaves `pc`,
`steps`, the registers and memory as they were, and is fatal: no step follows. 252 byte values
raise it. -/
def Obligations.UnknownOpcodeIsFatal : Prop :=
  (∀ (s : State) (op : Byte) (rest : List Byte), s.run = .running → ¬ AtLimit s →
    s.prog.drop s.pc = op :: rest → op ≠ 234 → op ≠ 102 → op ≠ 90 → op ≠ 224 →
    decode (op :: rest) = .error (.unknownOpcode op) ∧
    ∃ t, step s = .next t ∧ t.run = .faulted ∧ t.fcause = .unknownOpcode ∧ t.fpc = s.pc ∧
      t.fopcode = op ∧ t.faddr = s.faddr ∧ t.pc = s.pc ∧ t.steps = s.steps ∧
      SameRegs s t ∧ SameData s t ∧ SameProgram s t ∧ ∀ u, step t ≠ .next u) ∧
  ((List.range 256).filter (fun b => (variantOf (BitVec.ofNat 8 b)).isNone)).length = 252

/-- 30_encoding.md R100, 40_fetch_decode_dispatch.md R125 and 60_exceptions.md R202: a defined opcode with
fewer bytes remaining than its length (`r >= 2` for 90, `3` for 234, `4` for 102, `7` for 224) is a
`TruncatedInstruction` fault that records the defined opcode and leaves `pc`, `steps`, the registers
and memory as they were; with enough bytes it never is. -/
def Obligations.TruncatedInstructionFaults : Prop :=
  ∀ (s : State) (op : Byte) (rest : List Byte) (n : Nat), s.run = .running → ¬ AtLimit s →
    s.prog.drop s.pc = op :: rest →
    (op, n) ∈ [((234 : Byte), 3), (102, 4), (90, 2), (224, 7)] →
    (s.progLen < s.pc + n →
      decode (op :: rest) = .error (.truncatedInstruction op) ∧
      ∃ t, step s = .next t ∧ t.run = .faulted ∧ t.fcause = .truncatedInstruction ∧ t.fpc = s.pc ∧
        t.fopcode = op ∧ t.faddr = s.faddr ∧ t.pc = s.pc ∧ t.steps = s.steps ∧
        SameRegs s t ∧ SameData s t ∧ SameProgram s t) ∧
    (s.pc + n ≤ s.progLen → ∃ i, decode (op :: rest) = .ok (i, n) ∧ step s = exec i s)

/-- 60_exceptions.md R208: the fault tests run in the order unknown opcode, truncation, bounds, and the
first that holds ends the step. The cause a step records is a function of the first test that
holds; with none, the step records nothing and the machine runs on. -/
def Obligations.FaultPriority : Prop :=
  ∀ (s t : State) (op : Byte) (rest : List Byte), s.run = .running → ¬ AtLimit s →
    s.fcause = .none → s.prog.drop s.pc = op :: rest → step s = .next t →
    (lengthOf op = none → t.fcause = .unknownOpcode) ∧
    (∀ n, lengthOf op = some n → s.progLen < s.pc + n → t.fcause = .truncatedInstruction) ∧
    (∀ n i addr, lengthOf op = some n → s.pc + n ≤ s.progLen →
      decode (op :: rest) = .ok (i, n) → accessAddress i s = some addr →
      ¬ (0 ≤ addr ∧ addr < (s.cfg.memSize : Int)) → t.fcause = .memoryBounds ∧ t.faddr = addr) ∧
    (∀ n i, lengthOf op = some n → s.pc + n ≤ s.progLen → decode (op :: rest) = .ok (i, n) →
      (∀ addr, accessAddress i s = some addr → 0 ≤ addr ∧ addr < (s.cfg.memSize : Int)) →
      t.fcause = .none ∧ t.run = .running)

/-- 10_state.md R26: a step that decodes an instruction of length `n`, one of 2, 3, 4, 7, sets
`pc <- pc + n`, whatever the instruction then does, a fault included; there is no other change of
`pc`; and `pc` never wraps, since `pc + n <= PROG_LEN <= PROG_MAX < 2^PC_W` in a state that meets the
invariant. `pc` may be any number: no alignment is asked of it. -/
def Obligations.PcMovesOnlyByTheAdvance : Prop :=
  (∀ (s : State) (i : Instr) (n : Nat), s.run = .running → ¬ AtLimit s →
    decode (s.prog.drop s.pc) = .ok (i, n) →
    n ∈ [2, 3, 4, 7] ∧ ∃ t, step s = .next t ∧ t.pc = s.pc + n) ∧
  (∀ s t : State, step s = .next t →
    (∃ i n, decode (s.prog.drop s.pc) = .ok (i, n) ∧ t.pc = s.pc + n) ∨
      (t.pc = s.pc ∧ t.run ≠ .running)) ∧
  (∀ s t : State, Inv s → step s = .next t →
    t.pc ≤ t.progLen ∧ t.progLen ≤ t.cfg.progMax ∧ t.cfg.progMax < 2 ^ t.cfg.pcWidth)

/-- 10_state.md R28, decision D12: a step starts in `Running` and ends in `Running`, `Halted`, `Faulted` or
`StepLimited`, never in `Ready`; one that ends in `Running` has moved `pc` forward by at least 2. Of
the host's moves reset alone leads to `Ready` and start alone from `Ready` to `Running`. -/
def Obligations.RunStateTransitions : Prop :=
  (∀ s t : State, step s = .next t → s.run = .running ∧ t.run ≠ .ready ∧
    (t.run = .running → s.pc + 2 ≤ t.pc ∧ t.pc ≤ t.progLen)) ∧
  (∀ s t : State, hostMove .reset s = .next t → t.run = .ready) ∧
  (∀ s t : State, hostMove .start s = .next t →
    t.run = if s.run = .ready then .running else s.run) ∧
  (∀ (s t : State) (bytes : List Byte), hostMove (.load bytes) s = .next t →
    s.run = .ready ∧ t.run = .ready)

/-- 40_fetch_decode_dispatch.md R137, which the spec marks as derived: from `Running` a terminal state is
reached within `floor((PROG_LEN - pc) / 2) + 1` steps, so within `floor(PROG_LEN / 2) + 1` from the
start, and the machine answers a next state at each of them. -/
def Obligations.RunsTerminate : Prop :=
  ∀ s : State, s.run = .running → s.pc ≤ s.progLen →
    ∃ k t, k ≤ (s.progLen - s.pc) / 2 + 1 ∧ Host.Core.run core k s = .next t ∧
      t.run.terminal = true

/-! ## The four instructions -/

/-- 41_load_const.md R150, decisions D3 and D23: LOAD_CONST completes in every state; the register then
reads as the constant, bits `[12:0]` being the field and bits `[31:13]` copies of field bit 12;
everything but `pc` and `steps` is as before. Every register may be the destination. -/
def Obligations.LoadConstResult : Prop :=
  ∀ (reg : RegIdx) (const13 : Int) (s : State), (Instr.loadConst reg const13).WellFormed →
    ∃ t, exec (.loadConst reg const13) s = .next t ∧ Counted 3 s t ∧
      sint (readReg t reg) = const13 ∧
      (∀ k, k < 32 → (readReg t reg).getLsbD k = (BitVec.ofInt 13 const13).getLsbD (min k 12)) ∧
      (∀ r, r ≠ reg → readReg t r = readReg s r) ∧
      SameData s t ∧ SameRecord s t ∧ SameProgram s t ∧ t.run = s.run

/-- 42_memory_access.md R160: READ_MEM in bounds loads the word at `sint(x[D]) + B`, the base read before
the destination is written, and changes nothing else but `pc` and `steps`; out of bounds it raises
`MemoryBounds(addr)`, writes no register, and `pc` stays advanced. -/
def Obligations.ReadMemResult : Prop :=
  ∀ (offset13 : Int) (dstReg baseReg : RegIdx) (s : State) (addr : Int),
    addr = sint (readReg s baseReg) + offset13 →
    (0 ≤ addr ∧ addr < (s.cfg.memSize : Int) →
      ∃ t, exec (.readMem offset13 dstReg baseReg) s = .next t ∧ Counted 4 s t ∧
        readReg t dstReg = s.mem.read addr.toNat ∧
        (∀ r, r ≠ dstReg → readReg t r = readReg s r) ∧
        SameData s t ∧ SameRecord s t ∧ SameProgram s t ∧ t.run = s.run) ∧
    (addr < 0 ∨ (s.cfg.memSize : Int) ≤ addr →
      ∃ t, exec (.readMem offset13 dstReg baseReg) s = .next t ∧ Counted 4 s t ∧
        BoundsFaulted 102 addr s t)

/-- 42_memory_access.md R161: WRITE_MEM in bounds stores the word of `x[B]` at `sint(x[C])` and changes
nothing else but `pc` and `steps`; out of bounds it raises `MemoryBounds(addr)` and stores nothing,
and `pc` stays advanced. -/
def Obligations.WriteMemResult : Prop :=
  ∀ (srcReg addrReg : RegIdx) (s : State) (addr : Int), s.mem.wf = true →
    addr = sint (readReg s addrReg) →
    (0 ≤ addr ∧ addr < (s.cfg.memSize : Int) →
      ∃ t, exec (.writeMem srcReg addrReg) s = .next t ∧ Counted 2 s t ∧
        t.mem.read addr.toNat = readReg s srcReg ∧
        (∀ a : Nat, (a : Int) ≠ addr → t.mem.read a = s.mem.read a) ∧
        SameRegs s t ∧ SameRecord s t ∧ SameProgram s t ∧ t.run = s.run) ∧
    (addr < 0 ∨ (s.cfg.memSize : Int) ≤ addr →
      ∃ t, exec (.writeMem srcReg addrReg) s = .next t ∧ Counted 2 s t ∧
        BoundsFaulted 90 addr s t)

/-- 43_shift_right.md R180: SHIFT_RIGHT in bounds stores at `sint(x[E]) + D` the word of `x[B]` shifted
right by `C` with zero fill, 0 for an amount of 32 or more, and changes nothing else but `pc` and
`steps`, no register among them; out of bounds it raises `MemoryBounds(addr)` and stores nothing. -/
def Obligations.ShiftRightResult : Prop :=
  ∀ (valReg : RegIdx) (amt : Nat) (offset13 : Int) (baseReg : RegIdx) (s : State) (addr : Int),
    (Instr.shiftRight valReg amt offset13 baseReg).WellFormed → s.mem.wf = true →
    addr = sint (readReg s baseReg) + offset13 →
    (0 ≤ addr ∧ addr < (s.cfg.memSize : Int) →
      ∃ t, exec (.shiftRight valReg amt offset13 baseReg) s = .next t ∧ Counted 7 s t ∧
        uint (t.mem.read addr.toNat) =
          (if amt < 32 then uint (readReg s valReg) / 2 ^ amt else 0) ∧
        (∀ a : Nat, (a : Int) ≠ addr → t.mem.read a = s.mem.read a) ∧
        SameRegs s t ∧ SameRecord s t ∧ SameProgram s t ∧ t.run = s.run) ∧
    (addr < 0 ∨ (s.cfg.memSize : Int) ≤ addr →
      ∃ t, exec (.shiftRight valReg amt offset13 baseReg) s = .next t ∧ Counted 7 s t ∧
        BoundsFaulted 224 addr s t)

/-- 00_scope.md R15: `LSR32(w, amt)` is `w` for a negative amount, the logical shift that fills the vacated
high bits with 0 for `0 <= amt <= 31`, and the all-zero word for an amount of 32 or more. -/
def Obligations.ShifterFunction : Prop :=
  ∀ (w : Word) (amt : Int),
    (amt < 0 → lsr32 w amt = w) ∧
    (0 ≤ amt → amt ≤ 31 → uint (lsr32 w amt) = uint w / 2 ^ amt.toNat ∧
      ∀ k, k < 32 → (lsr32 w amt).getLsbD k =
        (decide (k + amt.toNat < 32) && w.getLsbD (k + amt.toNat))) ∧
    (32 ≤ amt → lsr32 w amt = 0)

/-- 43_shift_right.md R183, which the spec marks as derived, with decision D7: `diag_negshift` is raised by
no step of any state. The model's event is a function of the state a step starts from (log entry 11). -/
def Obligations.NegshiftNeverRaised : Prop := ∀ s : State, stepDiag s = false

/-- The frame of the instructions that write a register, LOAD_CONST and READ_MEM: in whichever next state
they answer, every register but the destination, every word of data memory, the program and the
parameters are as before, and so is the fault record unless READ_MEM faulted (10_state.md R22;
20_memory.md R58). -/
def Obligations.RegisterWriteFrame : Prop :=
  ∀ (i : Instr) (dst : RegIdx) (s t : State),
    ((∃ c, i = .loadConst dst c) ∨ (∃ off base, i = .readMem off dst base)) →
    exec i s = .next t →
    (∀ r, r ≠ dst → readReg t r = readReg s r) ∧ SameData s t ∧ SameProgram s t ∧
      Counted i.length s t ∧
      ((t.run = s.run ∧ SameRecord s t) ∨
        (t.run = .faulted ∧ SameRegs s t ∧ ∃ off base, i = .readMem off dst base))

/-- The frame of the instructions that store, WRITE_MEM and SHIFT_RIGHT: in whichever next state they
answer, every register and every word of data memory but the one at the instruction's effective
address is as before, and so are the program, the parameters and, unless the instruction faulted,
the fault record (10_state.md R22; 20_memory.md R58). -/
def Obligations.StoreFrame : Prop :=
  ∀ (i : Instr) (s t : State) (addr : Int),
    ((∃ r q, i = .writeMem r q) ∨ (∃ r c d q, i = .shiftRight r c d q)) →
    accessAddress i s = some addr → exec i s = .next t →
    SameRegs s t ∧ (∀ a : Nat, (a : Int) ≠ addr → t.mem.read a = s.mem.read a) ∧
      SameProgram s t ∧ Counted i.length s t ∧
      ((t.run = s.run ∧ SameRecord s t) ∨ (t.run = .faulted ∧ SameData s t))

/-! ## The register file and the memories -/

/-- 10_state.md R22: an instruction writes no register but the one of the table, a READ_MEM that fails its
bounds check writes none, and its effect depends on no register but those the table says it reads:
with the others different, it writes the same words, to the same places, and stops alike. -/
def Obligations.RegisterFileControl : Prop :=
  ∀ (i : Instr) (s t : State), exec i s = .next t →
    (∀ r, registerWritten i ≠ some r → readReg t r = readReg s r) ∧
    (∀ addr, accessAddress i s = some addr → ¬ InBounds s.cfg addr → SameRegs s t) ∧
    (∀ s' t' : State, (∃ regs, s' = { s with regs := regs }) →
      (∀ r, r ∈ registersRead i → readReg s' r = readReg s r) →
      exec i s' = .next t' →
      t'.mem = t.mem ∧ t'.pc = t.pc ∧ t'.run = t.run ∧ t'.steps = t.steps ∧ SameRecord t t' ∧
        (∀ r, registerWritten i = some r → t.run = s.run →
          s.run ≠ .faulted → readReg t' r = readReg t r))

/-- A step changes at most one word of data memory, and only a WRITE_MEM or SHIFT_RIGHT it decoded does,
at its in-bounds effective address; LOAD_CONST makes no access at all (10_state.md R36, R41;
20_memory.md R58). -/
def Obligations.DataMemoryControl : Prop :=
  ∀ (s t : State) (a : Nat), step s = .next t → t.mem.read a ≠ s.mem.read a →
    ∃ i n, decode (s.prog.drop s.pc) = .ok (i, n) ∧ accessAddress i s = some (a : Int) ∧
      a < s.cfg.memSize ∧ ((∃ r q, i = .writeMem r q) ∨ (∃ r c d q, i = .shiftRight r c d q)) ∧
      ∀ b, b ≠ a → t.mem.read b = s.mem.read b

/-- 20_memory.md R74 and R75: `MemRead` and `MemWrite` act exactly when `0 <= addr < MEM_SIZE`; a read
gives the word `DM[addr]`; after a write of `w`, `addr` reads `w` and every other address as before. -/
def Obligations.MemoryPrimitives : Prop :=
  ∀ (s : State) (addr : Int), s.mem.wf = true →
    (0 ≤ addr ∧ addr < (s.cfg.memSize : Int) →
      memRead s addr = some (s.mem.read addr.toNat) ∧
      ∀ w, ∃ t, memWrite s addr w = some t ∧ memRead t addr = some w ∧
        (∀ other : Int, other ≠ addr → memRead t other = memRead s other) ∧
        SameRegs s t ∧ SameRecord s t ∧ SameProgram s t ∧ t.run = s.run ∧ t.pc = s.pc ∧
        t.steps = s.steps) ∧
    (¬ (0 ≤ addr ∧ addr < (s.cfg.memSize : Int)) →
      memRead s addr = none ∧ ∀ w, memWrite s addr w = none)

/-- The canonical form is canonical: two memories in it that read alike at every address are equal data
(log entry 1; 20_memory.md R52). -/
def Obligations.CanonicalMemoriesAreEqual : Prop :=
  ∀ m m' : Memory, m.wf = true → m'.wf = true → (∀ a, m.read a = m'.read a) → m = m'

/-- 70_reset_and_hazards.md R254, which the spec marks as derived: a READ_MEM right after a WRITE_MEM or an
unshifted SHIFT_RIGHT to the same address gives the stored word, whatever the addressing forms. -/
def Obligations.LoadSeesTheStore : Prop :=
  ∀ (store : Instr) (src dst base : RegIdx) (off addr : Int) (s t : State),
    ((∃ q, store = .writeMem src q) ∨ (∃ d q, store = .shiftRight src 0 d q)) →
    s.mem.wf = true → accessAddress store s = some addr → InBounds s.cfg addr →
    exec store s = .next t → accessAddress (.readMem off dst base) t = some addr →
    ∃ u, exec (.readMem off dst base) t = .next u ∧ readReg u dst = readReg s src

/-- 20_memory.md R65, its note on equivalent hardware, which the spec marks as derived: with
`MEM_SIZE <= 2^31 - 4096` the bounds check gives the verdict of the unsigned comparison of the sum
modulo `2^32`, for every word and every 13-bit offset, and where it passes the addresses agree. -/
def Obligations.BoundsCheckIsUnsignedCompare : Prop :=
  ∀ (cfg : Config) (w : Word) (off : Int), cfg.memSize ≤ 2 ^ 31 - 4096 → InSigned13 off →
    (InBounds cfg (sint w + off) ↔ (w + to32 off).toNat < cfg.memSize) ∧
    (InBounds cfg (sint w + off) → (sint w + off).toNat = (w + to32 off).toNat)

/-! ## Faults -/

/-- 60_exceptions.md R203: a memory instruction whose effective address fails the check raises
`MemoryBounds`, which reports the full mathematical address, the opcode byte that stands at the
instruction's own address, and that address. That `pc` and `steps` have advanced is decision D10. -/
def Obligations.MemoryBoundsReport : Prop :=
  ∀ (s : State) (i : Instr) (n : Nat) (addr : Int), s.run = .running → ¬ AtLimit s →
    decode (s.prog.drop s.pc) = .ok (i, n) → accessAddress i s = some addr →
    (addr < 0 ∨ (s.cfg.memSize : Int) ≤ addr) →
    ∃ t, step s = .next t ∧ t.run = .faulted ∧ t.fcause = .memoryBounds ∧ t.faddr = addr ∧
      s.prog[s.pc]? = some t.fopcode ∧ t.fpc = s.pc ∧ t.pc = s.pc + n ∧ t.steps = s.steps + 1

/-- 60_exceptions.md R212, decision D19: faults are precise. A step that ends `Faulted` has changed no
register and no word of memory, records its own instruction, and no step follows. -/
def Obligations.FaultsArePrecise : Prop :=
  ∀ s t : State, step s = .next t → t.run = .faulted →
    SameRegs s t ∧ t.mem = s.mem ∧ SameProgram s t ∧ t.fpc = s.pc ∧ t.fcause ≠ .none ∧
      s.prog[s.pc]? = some t.fopcode ∧ ∀ u, step t ≠ .next u

/-! ## Reset and the host -/

/-- 10_state.md R43 and 70_reset_and_hazards.md R240, R242, decisions D9, D11, D13, D15: reset, accepted in
every run state, leaves every piece of state at the value of the table and does not touch the program
memory. The reset state of the model is that state; its empty program is log entry 3. -/
def Obligations.ResetLeavesTableValues : Prop :=
  (∀ s : State, ∃ t, hostMove .reset s = .next t ∧ (∀ r, readReg t r = 0) ∧
    (∀ a, t.mem.read a = 0) ∧ t.pc = 0 ∧ t.run = .ready ∧ t.steps = 0 ∧ t.fcause = .none ∧
    t.fpc = 0 ∧ t.fopcode = 0 ∧ t.faddr = 0 ∧ SameProgram s t) ∧
  hostMove .reset State.reset = .next State.reset ∧
  State.reset.cfg = ⟨65536, 65536, none⟩

/-- 40_fetch_decode_dispatch.md R121, 70_reset_and_hazards.md R248 and R250, decision D14: `start` acts only
in `Ready` and changes `run` alone; a program of at most PROG_MAX bytes is loaded only in `Ready` and
changes program memory alone; no move of the host but reset changes a register or data memory, and
no move at all, reset included, changes a parameter. -/
def Obligations.HostProtocol : Prop :=
  (∀ s : State, s.run = .ready → hostMove .start s = .next { s with run := .running }) ∧
  (∀ s : State, s.run ≠ .ready → hostMove .start s = .next s) ∧
  (∀ (s : State) (bytes : List Byte), s.run = .ready → bytes.length ≤ s.cfg.progMax →
    hostMove (.load bytes) s = .next { s with prog := bytes }) ∧
  (∀ (s t : State) (bytes : List Byte), s.run ≠ .ready ∨ s.cfg.progMax < bytes.length →
    hostMove (.load bytes) s ≠ .next t) ∧
  (∀ (s t : State) (m : HostMove), m ≠ .reset → hostMove m s = .next t →
    t.regs = s.regs ∧ t.mem = s.mem) ∧
  (∀ (s t : State) (m : HostMove), hostMove m s = .next t → t.cfg = s.cfg)

/-- 10_state.md R41, R42 and 70_reset_and_hazards.md R251, decisions D14 and D21: while `run != Running` the
host reads the status outputs, and the words `DM[lo] .. DM[hi]` of a range inside `[0, MEM_SIZE)` in
rising address order; while `run = Running` it reads nothing, and past the end of memory no word. That the last holds of a
request with `lo > hi` too is the model's choice, log entry 16. -/
def Obligations.HostReads : Prop :=
  (∀ s : State, s.run ≠ .running → hostReadStatus s = .next (statusOf s)) ∧
  (∀ (s : State) (lo hi : Nat), s.run ≠ .running → lo ≤ hi → hi < s.cfg.memSize →
    ∃ words, hostDump lo hi s = .next words ∧ words.length = hi - lo + 1 ∧
      ∀ k, k ≤ hi - lo → words[k]? = some (s.mem.read (lo + k))) ∧
  (∀ (s : State) (lo hi : Nat) (words : List Word), s.run = .running →
    hostDump lo hi s ≠ .next words ∧ ∀ st, hostReadStatus s ≠ .next st) ∧
  (∀ (s : State) (lo hi : Nat) (words : List Word), s.cfg.memSize ≤ hi →
    hostDump lo hi s ≠ .next words)

/-- The status outputs carry `pc`, `steps`, `fpc` and `faddr` without loss in their widths, in every state
that meets the invariant (10_state.md R24, R30, R32, R34; 20_memory.md R64, decisions D4, D9, D11,
D13; the model holds them as numbers, log entry 7). -/
def Obligations.StatusWidthsSuffice : Prop :=
  ∀ s : State, Inv s →
    (statusOf s).pc.toNat = s.pc ∧ (statusOf s).steps.toNat = s.steps ∧
      (statusOf s).fpc.toNat = s.fpc ∧ (statusOf s).faddr.toInt = s.faddr

/-- 10_state.md R28, R31, R33, R41 (d), decision D11: the status outputs carry `run` and `fcause` in
their numeric codes, the opcode byte of the fault record, and the eight registers, in every state. -/
def Obligations.StatusOutputsCarryTheState : Prop :=
  (∀ s : State, (statusOf s).fopcode = s.fopcode ∧
    ∀ r : RegIdx, (statusOf s).regs.get r = readReg s r) ∧
  (∀ (s : State) (r : RunState) (code : BitVec 3),
    (r, code) ∈ [(RunState.ready, (0 : BitVec 3)), (.running, 1), (.halted, 2), (.faulted, 3),
      (.stepLimited, 4)] → ((statusOf s).run = code ↔ s.run = r)) ∧
  (∀ (s : State) (c : FaultCause) (code : BitVec 2),
    (c, code) ∈ [(FaultCause.none, (0 : BitVec 2)), (.unknownOpcode, 1),
      (.truncatedInstruction, 2), (.memoryBounds, 3)] → ((statusOf s).fcause = code ↔ s.fcause = c))

/-- 70_reset_and_hazards.md R252: after any number of steps from freshly reset engine state, everything a
state holds is a function of the program, its length, MEM_SIZE and STEP_LIMIT alone: two blocks that
agree on these, whatever their states before the reset and whatever PROG_MAX either has, are in
identical states but for that parameter. -/
def Obligations.RunsFromResetAreIdentical : Prop :=
  ∀ s s' : State, s'.prog = s.prog → s'.cfg.memSize = s.cfg.memSize →
    s'.cfg.stepLimit = s.cfg.stepLimit →
    ∀ (k : Nat) (t : State), Host.Core.run core k (hostStart (hostReset s)) = .next t →
      Host.Core.run core k (hostStart (hostReset s')) = .next { t with cfg := s'.cfg }

/-- The program and the parameters never change in a run: no step and no reset or start touches them, and
a load changes no parameter (10_state.md R29, R37; 20_memory.md R72, decision D1). -/
def Obligations.ProgramNeverChangesInARun : Prop :=
  (∀ s t : State, step s = .next t → SameProgram s t) ∧
  (∀ (s t : State) (m : HostMove), hostMove m s = .next t →
    t.cfg = s.cfg ∧ (s.run ≠ .ready → t.prog = s.prog))

/-! ## Invariants -/

/-- The invariant holds of the reset state and of every instance the model builds: 10_state.md R25, R31,
R43. -/
def Obligations.InvAtReset : Prop :=
  Inv State.reset ∧
  ∀ (cfg : Config) (prog : List Byte), cfg.valid = true → prog.length ≤ cfg.progMax →
    ∃ s, State.build cfg prog = .next s ∧ Inv s

/-- Every step keeps the invariant: `pc` an instruction boundary that `steps` counts (10_state.md R25, R30),
the fault record that of the fault and empty otherwise (R31 to R34; 60_exceptions.md R211, R213,
decisions D10, D11), data memory canonical and inside MEM_SIZE, the run state what the tests of the
step say (R28, D12). -/
def Obligations.StepKeepsInv : Prop := ∀ s t : State, Inv s → step s = .next t → Inv t

/-- Every move of the host keeps the invariant (70_reset_and_hazards.md R240, R248, R250). -/
def Obligations.HostMoveKeepsInv : Prop :=
  ∀ (s t : State) (m : HostMove), Inv s → hostMove m s = .next t → Inv t

/-- In every state a block reaches, by its own steps and the host's moves from its instantiation, the
invariant holds; `pc` is in the program or at its end; `steps` is at most half of `pc`
(10_state.md R25, R30; 93_implementation_defined.md U18). -/
def Obligations.ReachableStatesAreSound : Prop :=
  ∀ s : State, Reachable s → Inv s ∧ s.pc ≤ s.progLen ∧ 2 * s.steps ≤ s.pc ∧ s.steps ≤ 2 ^ 31

/-- 41_load_const.md R151, which the spec marks as derived: if every register and memory word is 0, a
LOAD_CONST constant or such a word shifted right, a step keeps it so; and reset makes it so. -/
def Obligations.OnlyMakeableWordsAppear : Prop :=
  (∀ s : State, AllMakeable (hostReset s)) ∧
  (∀ s t : State, s.mem.wf = true → AllMakeable s → step s = .next t → AllMakeable t)

/-- 70_reset_and_hazards.md R256, which the spec marks as derived, with 30_encoding.md R101 and R112: a program
that is the concatenation of the encoder's bytes of well-formed instructions, at most STEP_LIMIT of
them, every address they compute lying in `[0, MEM_SIZE)`, ends `Halted` after one step for each
instruction and one more, in the state that executing the instructions one after the other gives,
with `pc = PROG_LEN` and `steps` their number. -/
def Obligations.WellFormedProgramsRunToHalted : Prop :=
  ∀ (is : List Instr) (s : State), (∀ i ∈ is, i.WellFormed) → s.prog = is.flatMap Instr.bytes →
    s.run = .running → s.pc = 0 → s.steps = 0 →
    (∀ limit, s.cfg.stepLimit = some limit → is.length ≤ limit) →
    (∀ (before after : List Instr) (i : Instr) (t : State) (addr : Int),
      is = before ++ i :: after → execAll before s = .next t → accessAddress i t = some addr →
      InBounds s.cfg addr) →
    ∃ t, execAll is s = .next t ∧
      Host.Core.run core (is.length + 1) s = .next { t with run := .halted } ∧
      t.pc = s.progLen ∧ t.steps = is.length ∧ SameRecord s t ∧ t.prog = s.prog

end
end

