-- ==== Sys2Proof/Laws/Decode.lean ====
section
/-! SUPPORT. The decoder: what each of its parts answers, so that no later proof unfolds it. -/

namespace Sys2Proof

/-! ## The rows as numbers -/

@[simp] theorem layoutLoadConst_bytes : layoutLoadConst.bytes = 3 := rfl
@[simp] theorem layoutReadMem_bytes : layoutReadMem.bytes = 4 := rfl
@[simp] theorem layoutWriteMem_bytes : layoutWriteMem.bytes = 2 := rfl
@[simp] theorem layoutShiftRight_bytes : layoutShiftRight.bytes = 7 := rfl
@[simp] theorem layoutLoadConst_opcode : layoutLoadConst.opcode = 234 := rfl
@[simp] theorem layoutReadMem_opcode : layoutReadMem.opcode = 102 := rfl
@[simp] theorem layoutWriteMem_opcode : layoutWriteMem.opcode = 90 := rfl
@[simp] theorem layoutShiftRight_opcode : layoutShiftRight.opcode = 224 := rfl

theorem layout_bytes_range (v : Variant) : 2 ≤ v.layout.bytes ∧ v.layout.bytes ≤ 7 := by
  cases v <;> decide

theorem length_range (i : Instr) : 2 ≤ i.length ∧ i.length ≤ 7 := layout_bytes_range i.variant

@[simp] theorem variantOf_opcode (v : Variant) : variantOf v.layout.opcode = some v := by
  cases v <;> decide

/-- An opcode byte selects a variant exactly when it is that variant's opcode. -/
theorem variantOf_eq_some {op : Byte} {v : Variant} :
    variantOf op = some v ↔ op = v.layout.opcode := by
  constructor
  · intro h
    unfold variantOf at h
    split_ifs at h <;> (cases h; assumption)
  · rintro rfl; exact variantOf_opcode v

theorem variantOf_eq_none {op : Byte} :
    variantOf op = none ↔ op ≠ 234 ∧ op ≠ 102 ∧ op ≠ 90 ∧ op ≠ 224 := by
  unfold variantOf
  simp only [layoutLoadConst_opcode, layoutReadMem_opcode, layoutWriteMem_opcode,
    layoutShiftRight_opcode]
  by_cases h1 : op = 234#8
  · simp [h1]
  · by_cases h2 : op = 102#8
    · simp [h2]
    · by_cases h3 : op = 90#8
      · simp [h3]
      · by_cases h4 : op = 224#8
        · simp [h4]
        · simp [h1, h2, h3, h4]

@[simp] theorem variant_instrOf (v : Variant) (acc : Nat) : (instrOf v acc).variant = v := by
  cases v <;> rfl

/-! ## Fields -/

theorem extract_eq (f : BitField) (acc : Nat) : f.extract acc = acc / 2 ^ f.lo % 2 ^ f.width := by
  rw [BitField.extract, Nat.shiftRight_eq_div_pow, Nat.one_shiftLeft, Nat.and_two_pow_sub_one_eq_mod]

theorem extract_lt (f : BitField) (acc : Nat) : f.extract acc < 2 ^ f.width := by
  rw [extract_eq]; exact Nat.mod_lt _ (by positivity)

/-- Sign extension is the two's-complement reading of the field's bits. -/
theorem signExtend_eq_toInt {width : Nat} (hw : 0 < width) {raw : Nat} (h : raw < 2 ^ width) :
    signExtend width raw = (BitVec.ofNat width raw).toInt := by
  obtain ⟨w, rfl⟩ : ∃ w, width = w + 1 := ⟨width - 1, by omega⟩
  rw [BitVec.toInt_eq_toNat_bmod, BitVec.toNat_ofNat, Nat.mod_eq_of_lt h, Int.bmod_def, signExtend]
  have h2 : (2 : Nat) ^ (w + 1) = 2 * 2 ^ w := by ring
  have h3 : ((raw : Int) % ((2 ^ (w + 1) : Nat) : Int)) = raw :=
    Int.emod_eq_of_lt (by omega) (by exact_mod_cast h)
  rw [h3]
  simp only [Nat.add_sub_cancel]
  push_cast
  rw [h2] at h
  have h4 : ((2 : Int) ^ (w + 1)) = 2 * 2 ^ w := by ring
  have h5 : ((2 ^ w : Nat) : Int) = 2 ^ w := by push_cast; rfl
  rw [h4]
  split <;> split <;> omega

theorem signExtend_range13 {raw : Nat} (h : raw < 2 ^ 13) : InSigned13 (signExtend 13 raw) := by
  unfold signExtend
  constructor <;> split <;> omega

/-- Whatever the bits, the decoded instruction is well formed (30_encoding.md R99). -/
theorem instrOf_wellFormed (v : Variant) (acc : Nat) : (instrOf v acc).WellFormed := by
  have hs : ∀ f : BitField, f.width = 13 → InSigned13 (f.signedValue acc) := by
    intro f hf
    rw [BitField.signedValue, hf]
    exact signExtend_range13 (hf ▸ extract_lt f acc)
  cases v with
  | loadConst => simpa [instrOf, Instr.WellFormed, Instr.wellFormed] using hs fieldLoadConstC rfl
  | readMem => simpa [instrOf, Instr.WellFormed, Instr.wellFormed] using hs fieldReadMemB rfl
  | writeMem => rfl
  | shiftRight =>
    have h1 := hs fieldShiftRightD rfl
    have h2 : fieldShiftRightC.extract acc < 2 ^ 23 := extract_lt fieldShiftRightC acc
    simp only [instrOf, Instr.WellFormed, Instr.wellFormed, Bool.and_eq_true, decide_eq_true_eq,
      BitField.unsignedValue]
    exact ⟨⟨by omega, by omega⟩, h1⟩

/-! ## Bytes and numbers -/

@[simp] theorem accumulate_nil : accumulate [] = 0 := rfl

theorem accumulate_cons (b : Byte) (bs : List Byte) :
    accumulate (b :: bs) = b.toNat + 256 * accumulate bs := rfl

theorem accumulate_lt (bs : List Byte) : accumulate bs < 2 ^ (8 * bs.length) := by
  induction bs with
  | nil => simp
  | cons b bs ih =>
    have := b.isLt
    rw [accumulate_cons, List.length_cons, show 8 * (bs.length + 1) = 8 * bs.length + 8 by ring,
      pow_add]
    omega

@[simp] theorem leBytes_length (n acc : Nat) : (leBytes n acc).length = n := by
  induction n generalizing acc with
  | zero => rfl
  | succ n ih => simp [leBytes, ih]

theorem accumulate_leBytes (n acc : Nat) : accumulate (leBytes n acc) = acc % 2 ^ (8 * n) := by
  induction n generalizing acc with
  | zero => simp [leBytes, Nat.mod_one]
  | succ n ih =>
    rw [leBytes, accumulate_cons, ih, BitVec.toNat_ofNat, Nat.shiftRight_eq_div_pow,
      show 8 * (n + 1) = 8 + 8 * n by ring, pow_add, Nat.mod_mul]; rfl

theorem leBytes_accumulate (bs : List Byte) : leBytes bs.length (accumulate bs) = bs := by
  induction bs with
  | nil => rfl
  | cons b bs ih =>
    have hb := b.isLt
    rw [List.length_cons, leBytes, accumulate_cons]
    congr 1
    · apply BitVec.eq_of_toNat_eq
      rw [BitVec.toNat_ofNat]
      omega
    · rw [Nat.shiftRight_eq_div_pow, show (b.toNat + 256 * accumulate bs) / 2 ^ 8 = accumulate bs by
        omega]
      exact ih

/-! ## What the decoder answers -/

/-- The decoder succeeds exactly on a defined opcode with all its bytes present. -/
theorem decode_eq_ok {bytes : List Byte} {i : Instr} {n : Nat} :
    decode bytes = .ok (i, n) ↔
      ∃ v op rest, bytes = op :: rest ∧ op = v.layout.opcode ∧ n = v.layout.bytes ∧
        n ≤ bytes.length ∧ i = instrOf v (accumulate (bytes.take n)) := by
  constructor
  · intro h
    cases bytes with
    | nil => cases h
    | cons op rest =>
      simp only [decode] at h
      split at h
      · cases h
      · rename_i v hv
        split at h
        · cases h
        · rename_i hlen
          cases h
          exact ⟨v, op, rest, rfl, variantOf_eq_some.mp hv, rfl, by omega, rfl⟩
  · rintro ⟨v, op, rest, rfl, rfl, rfl, hlen, rfl⟩
    simp only [decode, variantOf_opcode]
    rw [if_neg (by omega)]

theorem decode_eq_unknownOpcode {bytes : List Byte} {op : Byte} :
    decode bytes = .error (.unknownOpcode op) ↔
      ∃ rest, bytes = op :: rest ∧ variantOf op = none := by
  cases bytes with
  | nil => simp [decode]
  | cons b rest =>
    simp only [decode, List.cons.injEq]
    split
    · rename_i h; simp only [Except.error.injEq, DecodeFailure.unknownOpcode.injEq]
      exact ⟨fun e => ⟨rest, ⟨e, rfl⟩, e ▸ h⟩, fun ⟨_, ⟨e, _⟩, _⟩ => e⟩
    · rename_i v h
      constructor
      · intro e; split at e <;> cases e
      · rintro ⟨_, ⟨rfl, _⟩, h'⟩; rw [h] at h'; cases h'

theorem decode_eq_truncated {bytes : List Byte} {op : Byte} :
    decode bytes = .error (.truncatedInstruction op) ↔
      ∃ (v : Variant) (rest : List Byte), bytes = op :: rest ∧ op = v.layout.opcode ∧ bytes.length < v.layout.bytes := by
  cases bytes with
  | nil => simp [decode]
  | cons b rest =>
    simp only [decode, List.cons.injEq]
    split
    · rename_i h
      constructor
      · intro e; cases e
      · rintro ⟨v, _, ⟨rfl, _⟩, h', _⟩; rw [variantOf_eq_some.mpr h'] at h; cases h
    · rename_i v h
      constructor
      · intro e
        split at e
        · cases e; exact ⟨v, rest, ⟨rfl, rfl⟩, variantOf_eq_some.mp h, ‹_›⟩
        · cases e
      · rintro ⟨v', _, ⟨rfl, _⟩, h', hlt⟩
        rw [variantOf_eq_some.mpr h'] at h
        cases h
        rw [if_pos hlt]

theorem decode_eq_noByte {bytes : List Byte} :
    decode bytes = .error .noByte ↔ bytes = [] := by
  cases bytes with
  | nil => simp [decode]
  | cons b rest =>
    simp only [decode, reduceCtorEq, iff_false]
    split
    · simp
    · split <;> simp

/-- The length a successful decode consumes is the instruction's, and the bytes are there. -/
theorem decode_ok_length {bytes : List Byte} {i : Instr} {n : Nat} (h : decode bytes = .ok (i, n)) :
    n = i.length ∧ n ≤ bytes.length ∧ 2 ≤ n ∧ n ≤ 7 := by
  obtain ⟨v, op, rest, -, -, rfl, hlen, rfl⟩ := decode_eq_ok.mp h
  exact ⟨by simp [Instr.length], hlen, layout_bytes_range v⟩

theorem decode_ok_wellFormed {bytes : List Byte} {i : Instr} {n : Nat}
    (h : decode bytes = .ok (i, n)) : i.WellFormed := by
  obtain ⟨v, op, rest, -, -, -, -, rfl⟩ := decode_eq_ok.mp h
  exact instrOf_wellFormed v _

/-- The first byte of what decodes is the opcode byte of the instruction. -/
theorem decode_ok_opcode {bytes : List Byte} {i : Instr} {n : Nat}
    (h : decode bytes = .ok (i, n)) : bytes.head? = some i.opcode := by
  obtain ⟨v, op, rest, rfl, rfl, -, -, rfl⟩ := decode_eq_ok.mp h
  simp [Instr.opcode]

end Sys2Proof
end

