-- ==== Sys2Proof/Laws/Encode.lean ====
section
/-! SUPPORT. The encoder: the accumulator of each instruction as a number, and how a field is cut out of
a sum of placed operands. -/

namespace Sys2Proof

theorem place_eq (f : BitField) (v : Int) : f.place v = (v % 2 ^ f.width).toNat * 2 ^ f.lo := by
  rw [BitField.place, Nat.shiftLeft_eq]

/-- A register operand fills its field as it is. -/
theorem place_register {f : BitField} (h : f.width = 3) (r : RegIdx) :
    f.place (r.val : Int) = r.val * 2 ^ f.lo := by
  have := r.isLt
  rw [place_eq, h]
  congr 1
  norm_num
  omega

theorem assemble_loadConst (r : RegIdx) (c : Int) :
    layoutLoadConst.assemble (Instr.loadConst r c).operands =
      234 + r.val * 2 ^ 8 + (c % 8192).toNat * 2 ^ 11 := by
  simp only [Layout.assemble, layoutLoadConst, Instr.operands, List.zipWith_cons_cons,
    List.zipWith_nil_right, List.sum_cons, List.sum_nil]
  rw [place_register rfl, place_eq, show BitVec.toNat (234 : Byte) = 234 from rfl]
  simp only [fieldLoadConstB, fieldLoadConstC, BitField.width, Nat.add_zero, ← Nat.add_assoc]
  norm_num

theorem assemble_readMem (off : Int) (d b : RegIdx) :
    layoutReadMem.assemble (Instr.readMem off d b).operands =
      102 + (off % 8192).toNat * 2 ^ 8 + d.val * 2 ^ 21 + b.val * 2 ^ 24 := by
  simp only [Layout.assemble, layoutReadMem, Instr.operands, List.zipWith_cons_cons,
    List.zipWith_nil_right, List.sum_cons, List.sum_nil]
  rw [place_register (f := fieldReadMemC) rfl, place_register (f := fieldReadMemD) rfl, place_eq,
    show BitVec.toNat (102 : Byte) = 102 from rfl]
  simp only [fieldReadMemB, fieldReadMemC, fieldReadMemD, BitField.width, Nat.add_zero,
    ← Nat.add_assoc]
  norm_num

theorem assemble_writeMem (a b : RegIdx) :
    layoutWriteMem.assemble (Instr.writeMem a b).operands =
      90 + a.val * 2 ^ 8 + b.val * 2 ^ 11 := by
  simp only [Layout.assemble, layoutWriteMem, Instr.operands, List.zipWith_cons_cons,
    List.zipWith_nil_right, List.sum_cons, List.sum_nil]
  rw [place_register (f := fieldWriteMemB) rfl, place_register (f := fieldWriteMemC) rfl,
    show BitVec.toNat (90 : Byte) = 90 from rfl]
  simp only [fieldWriteMemB, fieldWriteMemC, Nat.add_zero, ← Nat.add_assoc]

theorem assemble_shiftRight (v : RegIdx) (c d : Int) (b : RegIdx) :
    layoutShiftRight.assemble (Instr.shiftRight v c d b).operands =
      224 + v.val * 2 ^ 8 + (c % 8388608).toNat * 2 ^ 11 + (d % 8192).toNat * 2 ^ 34 +
        b.val * 2 ^ 47 := by
  simp only [Layout.assemble, layoutShiftRight, Instr.operands, List.zipWith_cons_cons,
    List.zipWith_nil_right, List.sum_cons, List.sum_nil]
  rw [place_register (f := fieldShiftRightB) rfl, place_register (f := fieldShiftRightE) rfl,
    place_eq, place_eq, show BitVec.toNat (224 : Byte) = 224 from rfl]
  simp only [fieldShiftRightB, fieldShiftRightC, fieldShiftRightD, fieldShiftRightE, BitField.width,
    Nat.add_zero, ← Nat.add_assoc]
  norm_num

/-- Cutting a field out of a sum: what lies below the field and what lies above it drop out. -/
theorem cut_of_sum {acc lo w x low high : Nat} (h : acc = low + (x + high * 2 ^ w) * 2 ^ lo)
    (h1 : low < 2 ^ lo) (h2 : x < 2 ^ w) : acc / 2 ^ lo % 2 ^ w = x := by
  rw [h, Nat.add_mul_div_right _ _ (by positivity), Nat.div_eq_of_lt h1, Nat.zero_add,
    Nat.add_mul_mod_self_right, Nat.mod_eq_of_lt h2]

/-- A register field reads as `r` where its bits are the number of `r`. -/
theorem register_eq {f : BitField} (hf : f.width = 3) {acc : Nat} {r : RegIdx}
    (h : acc / 2 ^ f.lo % 2 ^ 3 = r.val) : f.register acc = r := by
  apply Fin.ext
  have := r.isLt
  simp only [BitField.register, Fin.ofNat]
  rw [extract_eq, hf, h]
  omega

/-- A signed 13-bit field reads as `v` where its bits are `v` modulo 2^13. -/
theorem signedValue_eq {f : BitField} (hf : f.width = 13) {acc : Nat} {v : Int} (hv : InSigned13 v)
    (h : acc / 2 ^ f.lo % 2 ^ 13 = (v % 8192).toNat) : f.signedValue acc = v := by
  obtain ⟨h1, h2⟩ := hv
  rw [BitField.signedValue, hf, signExtend, extract_eq, hf, h]
  norm_num
  split <;> omega

end Sys2Proof
end

