-- ==== Sys2Proof/Laws/State.lean ====
section
/-! SUPPORT. One lemma per field per update of the state, and the spec of each operation over
registers and data memory. -/

namespace Sys2Proof.Machine

/-! ## Register write -/

@[simp] theorem writeReg_regs (s : State) (r : RegIdx) (w : Word) :
    (writeReg s r w).regs = s.regs.set r.val w r.isLt := rfl
@[simp] theorem writeReg_pc (s : State) (r : RegIdx) (w : Word) :
    (writeReg s r w).pc = s.pc := rfl
@[simp] theorem writeReg_run (s : State) (r : RegIdx) (w : Word) :
    (writeReg s r w).run = s.run := rfl
@[simp] theorem writeReg_steps (s : State) (r : RegIdx) (w : Word) :
    (writeReg s r w).steps = s.steps := rfl
@[simp] theorem writeReg_fcause (s : State) (r : RegIdx) (w : Word) :
    (writeReg s r w).fcause = s.fcause := rfl
@[simp] theorem writeReg_fpc (s : State) (r : RegIdx) (w : Word) :
    (writeReg s r w).fpc = s.fpc := rfl
@[simp] theorem writeReg_fopcode (s : State) (r : RegIdx) (w : Word) :
    (writeReg s r w).fopcode = s.fopcode := rfl
@[simp] theorem writeReg_faddr (s : State) (r : RegIdx) (w : Word) :
    (writeReg s r w).faddr = s.faddr := rfl
@[simp] theorem writeReg_mem (s : State) (r : RegIdx) (w : Word) :
    (writeReg s r w).mem = s.mem := rfl
@[simp] theorem writeReg_prog (s : State) (r : RegIdx) (w : Word) :
    (writeReg s r w).prog = s.prog := rfl
@[simp] theorem writeReg_cfg (s : State) (r : RegIdx) (w : Word) :
    (writeReg s r w).cfg = s.cfg := rfl

/-! ## Advance -/

@[simp] theorem advance_regs (n : Nat) (s : State) :
    (advance n s).regs = s.regs := rfl
@[simp] theorem advance_pc (n : Nat) (s : State) :
    (advance n s).pc = s.pc + n := rfl
@[simp] theorem advance_run (n : Nat) (s : State) :
    (advance n s).run = s.run := rfl
@[simp] theorem advance_steps (n : Nat) (s : State) :
    (advance n s).steps = s.steps + 1 := rfl
@[simp] theorem advance_fcause (n : Nat) (s : State) :
    (advance n s).fcause = s.fcause := rfl
@[simp] theorem advance_fpc (n : Nat) (s : State) :
    (advance n s).fpc = s.fpc := rfl
@[simp] theorem advance_fopcode (n : Nat) (s : State) :
    (advance n s).fopcode = s.fopcode := rfl
@[simp] theorem advance_faddr (n : Nat) (s : State) :
    (advance n s).faddr = s.faddr := rfl
@[simp] theorem advance_mem (n : Nat) (s : State) :
    (advance n s).mem = s.mem := rfl
@[simp] theorem advance_prog (n : Nat) (s : State) :
    (advance n s).prog = s.prog := rfl
@[simp] theorem advance_cfg (n : Nat) (s : State) :
    (advance n s).cfg = s.cfg := rfl

/-! ## Fault entry -/

@[simp] theorem raiseFault_regs (f : Raised) (ipc : Nat) (op : Byte) (s : State) :
    (raiseFault f ipc op s).regs = s.regs := rfl
@[simp] theorem raiseFault_pc (f : Raised) (ipc : Nat) (op : Byte) (s : State) :
    (raiseFault f ipc op s).pc = s.pc := rfl
@[simp] theorem raiseFault_run (f : Raised) (ipc : Nat) (op : Byte) (s : State) :
    (raiseFault f ipc op s).run = .faulted := rfl
@[simp] theorem raiseFault_steps (f : Raised) (ipc : Nat) (op : Byte) (s : State) :
    (raiseFault f ipc op s).steps = s.steps := rfl
@[simp] theorem raiseFault_fcause (f : Raised) (ipc : Nat) (op : Byte) (s : State) :
    (raiseFault f ipc op s).fcause = raisedCause f := rfl
@[simp] theorem raiseFault_fpc (f : Raised) (ipc : Nat) (op : Byte) (s : State) :
    (raiseFault f ipc op s).fpc = ipc := rfl
@[simp] theorem raiseFault_fopcode (f : Raised) (ipc : Nat) (op : Byte) (s : State) :
    (raiseFault f ipc op s).fopcode = op := rfl
@[simp] theorem raiseFault_faddr (f : Raised) (ipc : Nat) (op : Byte) (s : State) :
    (raiseFault f ipc op s).faddr = raisedAddr f s.faddr := rfl
@[simp] theorem raiseFault_mem (f : Raised) (ipc : Nat) (op : Byte) (s : State) :
    (raiseFault f ipc op s).mem = s.mem := rfl
@[simp] theorem raiseFault_prog (f : Raised) (ipc : Nat) (op : Byte) (s : State) :
    (raiseFault f ipc op s).prog = s.prog := rfl
@[simp] theorem raiseFault_cfg (f : Raised) (ipc : Nat) (op : Byte) (s : State) :
    (raiseFault f ipc op s).cfg = s.cfg := rfl

/-! ## Reset -/

@[simp] theorem afterReset_regs (cfg : Config) (prog : List Byte) :
    (State.afterReset cfg prog).regs = Vector.replicate 8 0 := rfl
@[simp] theorem afterReset_pc (cfg : Config) (prog : List Byte) :
    (State.afterReset cfg prog).pc = 0 := rfl
@[simp] theorem afterReset_run (cfg : Config) (prog : List Byte) :
    (State.afterReset cfg prog).run = .ready := rfl
@[simp] theorem afterReset_steps (cfg : Config) (prog : List Byte) :
    (State.afterReset cfg prog).steps = 0 := rfl
@[simp] theorem afterReset_fcause (cfg : Config) (prog : List Byte) :
    (State.afterReset cfg prog).fcause = .none := rfl
@[simp] theorem afterReset_fpc (cfg : Config) (prog : List Byte) :
    (State.afterReset cfg prog).fpc = 0 := rfl
@[simp] theorem afterReset_fopcode (cfg : Config) (prog : List Byte) :
    (State.afterReset cfg prog).fopcode = 0 := rfl
@[simp] theorem afterReset_faddr (cfg : Config) (prog : List Byte) :
    (State.afterReset cfg prog).faddr = 0 := rfl
@[simp] theorem afterReset_mem (cfg : Config) (prog : List Byte) :
    (State.afterReset cfg prog).mem = [] := rfl
@[simp] theorem afterReset_prog (cfg : Config) (prog : List Byte) :
    (State.afterReset cfg prog).prog = prog := rfl
@[simp] theorem afterReset_cfg (cfg : Config) (prog : List Byte) :
    (State.afterReset cfg prog).cfg = cfg := rfl

/-! ## Reads after these updates -/

@[simp] theorem readReg_advance (n : Nat) (s : State) (r : RegIdx) :
    readReg (advance n s) r = readReg s r := rfl

@[simp] theorem readReg_raiseFault (f : Raised) (ipc : Nat) (op : Byte) (s : State) (r : RegIdx) :
    readReg (raiseFault f ipc op s) r = readReg s r := rfl

theorem readReg_writeReg (s : State) (r q : RegIdx) (w : Word) :
    readReg (writeReg s r w) q = if r = q then w else readReg s q := by
  simp only [readReg, writeReg_regs, Vector.get_eq_getElem, Vector.getElem_set, Fin.ext_iff]

@[simp] theorem readReg_writeReg_same (s : State) (r : RegIdx) (w : Word) :
    readReg (writeReg s r w) r = w := by
  simp [readReg_writeReg]

theorem readReg_writeReg_other (s : State) {r q : RegIdx} (w : Word) (h : r ≠ q) :
    readReg (writeReg s r w) q = readReg s q := by
  simp [readReg_writeReg, h]

@[simp] theorem readReg_afterReset (cfg : Config) (prog : List Byte) (r : RegIdx) :
    readReg (State.afterReset cfg prog) r = 0 := by
  simp [readReg, Vector.get_eq_getElem]

/-- Two register files that read alike are equal data. -/
theorem regs_eq_of_readReg_eq {s t : State} (h : ∀ r, readReg t r = readReg s r) :
    t.regs = s.regs := by
  apply Vector.ext
  intro i hi
  simpa [readReg, Vector.get_eq_getElem] using h ⟨i, hi⟩

/-! ## The data port -/

theorem memRead_of_inBounds {s : State} {addr : Int} (h : InBounds s.cfg addr) :
    memRead s addr = some (s.mem.read addr.toNat) := by
  unfold memRead; exact if_pos h

theorem memRead_of_not_inBounds {s : State} {addr : Int} (h : ¬ InBounds s.cfg addr) :
    memRead s addr = none := by
  unfold memRead; exact if_neg h

theorem memWrite_of_inBounds {s : State} {addr : Int} (h : InBounds s.cfg addr) (w : Word) :
    memWrite s addr w = some { s with mem := s.mem.write addr.toNat w } := by
  unfold memWrite; exact if_pos h

theorem memWrite_of_not_inBounds {s : State} {addr : Int} (h : ¬ InBounds s.cfg addr) (w : Word) :
    memWrite s addr w = none := by
  unfold memWrite; exact if_neg h

end Sys2Proof.Machine
end

