-- ==== Sys2Proof/Laws/Exec.lean ====
section
/-! SUPPORT. What each meaning answers, and what the dispatch can do, said once. -/

namespace Sys2Proof.Machine

theorem exec_loadConst (reg : RegIdx) (const13 : Int) (s : State) :
    exec (.loadConst reg const13) s = .next (writeReg (advance 3 s) reg (to32 const13)) := rfl

theorem exec_readMem_inBounds {off : Int} {dst base : RegIdx} {s : State}
    (h : InBounds s.cfg (effectiveAddress s base off)) :
    exec (.readMem off dst base) s =
      .next (writeReg (advance 4 s) dst (s.mem.read (effectiveAddress s base off).toNat)) := by
  simp only [exec, execReadMem, layoutReadMem_bytes]
  rw [memRead_of_inBounds (by exact h), advance_mem]

theorem exec_readMem_outOfBounds {off : Int} {dst base : RegIdx} {s : State}
    (h : ¬ InBounds s.cfg (effectiveAddress s base off)) :
    exec (.readMem off dst base) s =
      .next (raiseFault (.memoryBounds (effectiveAddress s base off)) s.pc 102 (advance 4 s)) := by
  simp only [exec, execReadMem, layoutReadMem_bytes, layoutReadMem_opcode]
  rw [memRead_of_not_inBounds (by exact h)]

theorem exec_writeMem_inBounds {src addrReg : RegIdx} {s : State}
    (h : InBounds s.cfg (effectiveAddress s addrReg 0)) :
    exec (.writeMem src addrReg) s =
      .next { advance 2 s with
        mem := s.mem.write (effectiveAddress s addrReg 0).toNat (readReg s src) } := by
  simp only [exec, execWriteMem, layoutWriteMem_bytes]
  rw [memWrite_of_inBounds (by exact h), advance_mem]

theorem exec_writeMem_outOfBounds {src addrReg : RegIdx} {s : State}
    (h : ¬ InBounds s.cfg (effectiveAddress s addrReg 0)) :
    exec (.writeMem src addrReg) s =
      .next (raiseFault (.memoryBounds (effectiveAddress s addrReg 0)) s.pc 90 (advance 2 s)) := by
  simp only [exec, execWriteMem, layoutWriteMem_bytes, layoutWriteMem_opcode]
  rw [memWrite_of_not_inBounds (by exact h)]

theorem exec_shiftRight_inBounds {val base : RegIdx} {amt off : Int} {s : State}
    (h : InBounds s.cfg (effectiveAddress s base off)) :
    exec (.shiftRight val amt off base) s =
      .next { advance 7 s with
        mem := s.mem.write (effectiveAddress s base off).toNat (lsr32 (readReg s val) amt) } := by
  simp only [exec, execShiftRight, layoutShiftRight_bytes, shiftAmount]
  rw [memWrite_of_inBounds (by exact h), advance_mem]

theorem exec_shiftRight_outOfBounds {val base : RegIdx} {amt off : Int} {s : State}
    (h : ¬ InBounds s.cfg (effectiveAddress s base off)) :
    exec (.shiftRight val amt off base) s =
      .next (raiseFault (.memoryBounds (effectiveAddress s base off)) s.pc 224 (advance 7 s)) := by
  simp only [exec, execShiftRight, layoutShiftRight_bytes, layoutShiftRight_opcode]
  rw [memWrite_of_not_inBounds (by exact h)]

/-- Everything an instruction can do: raise `MemoryBounds`, write one register, or store one word. -/
theorem exec_cases (i : Instr) (s : State) :
    (∃ addr, accessAddress i s = some addr ∧ ¬ InBounds s.cfg addr ∧
      exec i s = .next (raiseFault (.memoryBounds addr) s.pc i.opcode (advance i.length s))) ∨
    (∃ r c, i = .loadConst r c ∧
      exec i s = .next (writeReg (advance i.length s) r (to32 c))) ∨
    (∃ off r base, i = .readMem off r base ∧ InBounds s.cfg (effectiveAddress s base off) ∧
      exec i s = .next (writeReg (advance i.length s) r
        (s.mem.read (effectiveAddress s base off).toNat))) ∨
    (∃ r base, i = .writeMem r base ∧ InBounds s.cfg (effectiveAddress s base 0) ∧
      exec i s = .next { advance i.length s with
        mem := s.mem.write (effectiveAddress s base 0).toNat (readReg s r) }) ∨
    (∃ r amt off base, i = .shiftRight r amt off base ∧
      InBounds s.cfg (effectiveAddress s base off) ∧
      exec i s = .next { advance i.length s with
        mem := s.mem.write (effectiveAddress s base off).toNat (lsr32 (readReg s r) amt) }) := by
  cases i with
  | loadConst r c => exact .inr (.inl ⟨r, c, rfl, exec_loadConst r c s⟩)
  | readMem off r base =>
    by_cases h : InBounds s.cfg (effectiveAddress s base off)
    · exact .inr (.inr (.inl ⟨off, r, base, rfl, h, exec_readMem_inBounds h⟩))
    · exact .inl ⟨_, rfl, h, exec_readMem_outOfBounds h⟩
  | writeMem r base =>
    by_cases h : InBounds s.cfg (effectiveAddress s base 0)
    · exact .inr (.inr (.inr (.inl ⟨r, base, rfl, h, exec_writeMem_inBounds h⟩)))
    · exact .inl ⟨_, rfl, h, exec_writeMem_outOfBounds h⟩
  | shiftRight r amt off base =>
    by_cases h : InBounds s.cfg (effectiveAddress s base off)
    · exact .inr (.inr (.inr (.inr ⟨r, amt, off, base, rfl, h, exec_shiftRight_inBounds h⟩)))
    · exact .inl ⟨_, rfl, h, exec_shiftRight_outOfBounds h⟩

end Sys2Proof.Machine
end

