-- ==== Sys2Proof/Laws/Memory.lean ====
section
/-! SUPPORT. Data memory as data: what a write changes, that every operation keeps the canonical form,
and that it is canonical: equal readings are equal data. -/

namespace Sys2Proof.Machine

@[simp] theorem read_nil (a : Nat) : Memory.read [] a = 0 := rfl

theorem read_cons (b : Nat) (v : Word) (m : Memory) (a : Nat) :
    Memory.read ((b, v) :: m) a = if a = b then v else Memory.read m a := rfl

@[simp] theorem wf_nil : Memory.wf [] = true := rfl

@[simp] theorem wfFrom_nil (lo : Nat) : Memory.wfFrom lo [] = true := rfl

theorem wfFrom_cons (lo a : Nat) (w : Word) (m : Memory) :
    Memory.wfFrom lo ((a, w) :: m) = true ↔
      lo ≤ a ∧ w ≠ 0 ∧ Memory.wfFrom (a + 1) m = true := by
  simp [Memory.wfFrom, and_assoc]

/-- Below the first address everything reads as the unlisted word. -/
theorem read_of_lt {lo : Nat} {m : Memory} (h : Memory.wfFrom lo m = true) {a : Nat} (ha : a < lo) :
    Memory.read m a = 0 := by
  induction m generalizing lo with
  | nil => rfl
  | cons e m ih =>
    obtain ⟨hle, -, hm⟩ := (wfFrom_cons lo e.1 e.2 m).mp h
    rw [read_cons, if_neg (by omega)]
    exact ih hm (by omega)

theorem wfFrom_mono {lo lo' : Nat} {m : Memory} (h : Memory.wfFrom lo m = true) (hle : lo' ≤ lo) :
    Memory.wfFrom lo' m = true := by
  cases m with
  | nil => rfl
  | cons e m =>
    obtain ⟨h1, h2, h3⟩ := (wfFrom_cons lo e.1 e.2 m).mp h
    exact (wfFrom_cons lo' e.1 e.2 m).mpr ⟨by omega, h2, h3⟩

/-- A write leaves every other address as it was, in canonical form or not. -/
theorem read_write_other (m : Memory) {a b : Nat} (w : Word) (h : b ≠ a) :
    Memory.read (Memory.write m a w) b = Memory.read m b := by
  induction m with
  | nil =>
    simp only [Memory.write]
    split <;> simp [read_cons, h]
  | cons e m ih =>
    obtain ⟨c, v⟩ := e
    simp only [Memory.write]
    split
    · split <;> simp [read_cons, h]
    · split
      · subst_vars
        split <;> simp [read_cons, h]
      · simp only [read_cons, ih]

/-- A read after a write to the same address gives the word written. -/
theorem read_write_same {m : Memory} (hm : m.wf = true) (a : Nat) (w : Word) :
    Memory.read (Memory.write m a w) a = w := by
  suffices h : ∀ lo, Memory.wfFrom lo m = true → Memory.read (Memory.write m a w) a = w from h 0 hm
  clear hm
  induction m with
  | nil =>
    intro lo _
    simp only [Memory.write]
    split <;> simp_all [read_cons]
  | cons e m ih =>
    obtain ⟨c, v⟩ := e
    intro lo h
    obtain ⟨h1, h2, h3⟩ := (wfFrom_cons lo c v m).mp h
    simp only [Memory.write]
    split
    case isTrue hlt =>
      split
      case isTrue hw =>
        rw [read_cons, if_neg (by omega), hw]
        exact read_of_lt h3 (by omega)
      case isFalse => simp [read_cons]
    case isFalse hlt =>
      split
      case isTrue heq =>
        subst heq
        split
        case isTrue hw => rw [hw]; exact read_of_lt h3 (by omega)
        case isFalse => simp [read_cons]
      case isFalse heq =>
        rw [read_cons, if_neg heq]
        exact ih _ h3

theorem wfFrom_write {lo : Nat} {m : Memory} (h : Memory.wfFrom lo m = true) {a : Nat} (ha : lo ≤ a)
    (w : Word) : Memory.wfFrom lo (Memory.write m a w) = true := by
  induction m generalizing lo with
  | nil =>
    simp only [Memory.write]
    split
    · rfl
    · exact (wfFrom_cons _ _ _ _).mpr ⟨ha, ‹_›, rfl⟩
  | cons e m ih =>
    obtain ⟨c, v⟩ := e
    obtain ⟨h1, h2, h3⟩ := (wfFrom_cons lo c v m).mp h
    simp only [Memory.write]
    split
    · split
      · exact h
      · exact (wfFrom_cons _ _ _ _).mpr
          ⟨ha, ‹_›, (wfFrom_cons _ _ _ _).mpr ⟨by omega, h2, h3⟩⟩
    · split
      · subst_vars
        split
        · exact wfFrom_mono h3 (by omega)
        · exact (wfFrom_cons _ _ _ _).mpr ⟨ha, ‹_›, h3⟩
      · exact (wfFrom_cons _ _ _ _).mpr ⟨h1, h2, ih h3 (by omega)⟩

/-- A write keeps the canonical form. -/
theorem wf_write {m : Memory} (h : m.wf = true) (a : Nat) (w : Word) :
    (Memory.write m a w).wf = true := wfFrom_write h (Nat.zero_le a) w

/-- A write inside the address space lists no address outside it. -/
theorem inside_write {size : Nat} {m : Memory} (h : m.inside size = true) {a : Nat} (ha : a < size)
    (w : Word) : (Memory.write m a w).inside size = true := by
  induction m with
  | nil =>
    simp only [Memory.write]
    split <;> simp [Memory.inside, ha]
  | cons e m ih =>
    obtain ⟨c, v⟩ := e
    simp only [Memory.inside, List.all_cons, Bool.and_eq_true, decide_eq_true_eq] at h ih ⊢
    simp only [Memory.write]
    split
    · split <;> simp [h.1, h.2, ha]
    · split
      · split <;> simp [h.2, ha]
      · simp only [List.all_cons, Bool.and_eq_true, decide_eq_true_eq]
        exact ⟨h.1, ih h.2⟩

end Sys2Proof.Machine
end

