-- ==== Sys2Proof/Laws/Operands.lean ====
section
/-! SUPPORT. Words as numbers and the shifter: each definition of Operands.lean against the library's
operation, with its range (00_scope.md R10, R15; 42_memory_access.md R162). -/

namespace Sys2Proof.Machine

theorem sint_eq_toInt (w : Word) : sint w = w.toInt := by
  have hlt := w.isLt
  rw [sint, BitVec.toInt_eq_toNat_cond]
  by_cases h : w.getLsbD 31
  · have : w.msb = true := by simpa [BitVec.msb_eq_getLsbD_last] using h
    have := BitVec.msb_eq_true_iff_two_mul_ge.mp this
    rw [if_pos h, if_neg (by omega)]; norm_num
  · have : w.msb = false := by simpa [BitVec.msb_eq_getLsbD_last] using h
    have := BitVec.msb_eq_false_iff_two_mul_lt.mp this
    rw [if_neg h, if_pos (by omega)]

theorem sint_range (w : Word) : -2 ^ 31 ≤ sint w ∧ sint w < 2 ^ 31 := by
  rw [sint_eq_toInt]
  have := BitVec.le_toInt w
  have := BitVec.toInt_lt (x := w)
  norm_num at *
  omega

theorem to32_eq_ofInt (n : Int) : to32 n = BitVec.ofInt 32 n := by
  apply BitVec.eq_of_toNat_eq
  simp only [to32, BitVec.toNat_ofNat, BitVec.toNat_ofInt]
  norm_num
  omega

theorem uint_to32 (n : Int) : (uint (to32 n) : Int) = n % 2 ^ 32 := by
  simp only [uint, to32, BitVec.toNat_ofNat]
  omega

/-- `to32` then `sint` gives the number back where it fits. -/
theorem sint_to32 {n : Int} (h1 : -2 ^ 31 ≤ n) (h2 : n < 2 ^ 31) : sint (to32 n) = n := by
  rw [sint_eq_toInt, to32_eq_ofInt, BitVec.toInt_ofInt]
  exact Int.bmod_eq_of_le (by omega) (by omega)

theorem to32_natCast (n : Nat) : to32 (n : Int) = BitVec.ofNat 32 n := by
  apply BitVec.eq_of_toNat_eq
  simp only [to32, BitVec.toNat_ofNat]
  omega

@[simp] theorem clampAmount_natCast (n : Nat) : clampAmount (n : Int) = n := by
  simp [clampAmount, diagNegshift]

/-- The shifter is the logical right shift by the clamped amount. -/
theorem lsr32_eq_ushiftRight (w : Word) (amt : Int) : lsr32 w amt = w >>> clampAmount amt := by
  unfold lsr32
  split
  · rw [to32_natCast]
    apply BitVec.eq_of_toNat_eq
    simp only [BitVec.toNat_ofNat, BitVec.toNat_ushiftRight, uint]
    exact Nat.mod_eq_of_lt (lt_of_le_of_lt (Nat.shiftRight_le _ _) w.isLt)
  · symm
    exact BitVec.ushiftRight_eq_zero (by omega)

theorem effectiveAddress_range (s : State) (base : RegIdx) {off : Int} (h : InSigned13 off) :
    -2 ^ 31 - 4096 ≤ effectiveAddress s base off ∧ effectiveAddress s base off ≤ 2 ^ 31 + 4094 := by
  have := sint_range (readReg s base)
  obtain ⟨h1, h2⟩ := h
  unfold effectiveAddress
  omega

@[simp] theorem effectiveAddress_advance (n : Nat) (s : State) (base : RegIdx) (off : Int) :
    effectiveAddress (advance n s) base off = effectiveAddress s base off := rfl

end Sys2Proof.Machine
end

