-- ==== Sys2Proof/Laws/PerInstr.lean ====
section
/-! SUPPORT. Facts about an instruction as a term, one lemma per constructor. -/

namespace Sys2Proof.Laws.Encoding

/-- The encoder gives a well-formed instruction its canonical bytes, which are as many as its opcode
says and begin with the opcode byte, and gives an ill-formed one no bytes
(30_encoding.md R80, R103, R104). -/
def Statement (i : Instr) : Prop :=
  (i.WellFormed → encode i = .ok i.bytes) ∧
    (¬ i.WellFormed → encode i = .error .fieldOverflow) ∧
    i.bytes.length = i.length ∧ i.bytes.head? = some i.opcode

theorem admits_register {f : BitField} (hf : f.kind = .register) (r : RegIdx) :
    f.admits (r.val : Int) = true := by
  have := r.isLt
  simp only [BitField.admits, hf, decide_eq_true_eq]
  omega

theorem admits_signed {f : BitField} (hf : f.kind = .signed) (v : Int) :
    f.admits v = decide (InSigned13 v) := by
  simp only [BitField.admits, hf]

theorem admits_unsigned {f : BitField} (hf : f.kind = .unsigned) (v : Int) :
    f.admits v = decide (InUnsigned23 v) := by
  simp only [BitField.admits, hf]

/-- The encoder on an instruction: the range check of every operand is the well-formedness check. -/
theorem encode_eq (i : Instr) :
    encode i = if i.WellFormed then .ok i.bytes else .error .fieldOverflow := by
  have hv : variantOf i.opcode = some i.variant := variantOf_opcode i.variant
  have hlen : i.operands.length = i.variant.layout.fields.length := by cases i <;> rfl
  have hadm : (List.zipWith BitField.admits i.variant.layout.fields i.operands).all id
      = i.wellFormed := by
    cases i with
    | loadConst r c =>
      simp [Instr.variant, Variant.layout, layoutLoadConst, Instr.operands, Instr.wellFormed,
        admits_register (f := fieldLoadConstB) rfl, admits_signed (f := fieldLoadConstC) rfl]
    | readMem off d b =>
      simp [Instr.variant, Variant.layout, layoutReadMem, Instr.operands, Instr.wellFormed,
        admits_register (f := fieldReadMemC) rfl, admits_register (f := fieldReadMemD) rfl,
        admits_signed (f := fieldReadMemB) rfl]
    | writeMem a b =>
      simp [Instr.variant, Variant.layout, layoutWriteMem, Instr.operands, Instr.wellFormed,
        admits_register (f := fieldWriteMemB) rfl, admits_register (f := fieldWriteMemC) rfl]
    | shiftRight v c d b =>
      simp [Instr.variant, Variant.layout, layoutShiftRight, Instr.operands, Instr.wellFormed,
        admits_register (f := fieldShiftRightB) rfl, admits_register (f := fieldShiftRightE) rfl,
        admits_signed (f := fieldShiftRightD) rfl, admits_unsigned (f := fieldShiftRightC) rfl]
  rw [encode, encodeRow, hv]
  simp only [hlen, hadm, if_true]
  rfl

/-- The low byte of a number whose higher part is a multiple of 2^8 is its opcode byte. -/
theorem head_leBytes {n : Nat} (hn : 0 < n) (op : Byte) (rest : Nat) :
    (leBytes n (op.toNat + 2 ^ 8 * rest)).head? = some op := by
  obtain ⟨n, rfl⟩ : ∃ m, n = m + 1 := ⟨n - 1, by omega⟩
  have := op.isLt
  simp only [leBytes, List.head?_cons, Option.some.injEq]
  apply BitVec.eq_of_toNat_eq
  rw [BitVec.toNat_ofNat]
  omega

/-- The part of an accumulator above the opcode byte is a multiple of 2^8. -/
theorem assemble_eq (i : Instr) :
    ∃ rest, i.variant.layout.assemble i.operands = i.opcode.toNat + 2 ^ 8 * rest := by
  have hshift : ∀ (a lo : Nat), 8 ≤ lo → ∃ k, a * 2 ^ lo = 2 ^ 8 * k := fun a lo h =>
    ⟨a * 2 ^ (lo - 8), by rw [Nat.mul_left_comm, ← pow_add, Nat.add_sub_cancel' h]⟩
  have hsum : ∀ fs : List BitField, (∀ f ∈ fs, 8 ≤ f.lo) → ∀ vs : List Int,
      ∃ k, (List.zipWith BitField.place fs vs).sum = 2 ^ 8 * k := by
    intro fs
    induction fs with
    | nil => intro _ vs; exact ⟨0, by simp⟩
    | cons f fs ih =>
      intro h vs
      cases vs with
      | nil => exact ⟨0, by simp⟩
      | cons v vs =>
        obtain ⟨k, hk⟩ := ih (fun g hg => h g (List.mem_cons_of_mem _ hg)) vs
        obtain ⟨j, hj⟩ := hshift (v % 2 ^ f.width).toNat f.lo (h f List.mem_cons_self)
        exact ⟨j + k, by rw [List.zipWith_cons_cons, List.sum_cons, hk, place_eq, hj, Nat.mul_add]⟩
  obtain ⟨k, hk⟩ := hsum i.variant.layout.fields 
    (by generalize i.variant = v; cases v <;> decide) i.operands
  exact ⟨k, by rw [Layout.assemble, hk]; rfl⟩

/-- The four facts, whichever the constructor. -/
theorem holds (i : Instr) : Statement i := by
  refine ⟨fun h => ?_, fun h => ?_, leBytes_length _ _, ?_⟩
  · rw [encode_eq, if_pos h]
  · rw [encode_eq, if_neg h]
  · obtain ⟨rest, hr⟩ := assemble_eq i
    rw [Instr.bytes, hr]
    exact head_leBytes (by have := length_range i; omega) _ _

theorem loadConst (reg : RegIdx) (const13 : Int) : Statement (.loadConst reg const13) := holds _

theorem readMem (offset13 : Int) (dstReg baseReg : RegIdx) :
    Statement (.readMem offset13 dstReg baseReg) := holds _

theorem writeMem (srcReg addrReg : RegIdx) : Statement (.writeMem srcReg addrReg) := holds _

theorem shiftRight (valReg : RegIdx) (shiftOperand offset13 : Int) (baseReg : RegIdx) :
    Statement (.shiftRight valReg shiftOperand offset13 baseReg) := holds _

end Sys2Proof.Laws.Encoding
end

