-- ==== Sys2Proof/Laws/Step.lean ====
section
/-! SUPPORT. What a step can do, said once: later proofs cite `step_cases` and do not unfold `step`. -/

namespace Sys2Proof.Machine

theorem step_of_running {s : State} (h : s.run = .running) : step s = cycle exec s := by
  simp only [step, h]

/-- Only a running machine answers a next state, and it does one of five things. -/
theorem step_cases {s t : State} (h : step s = .next t) :
    s.run = .running ∧
    ((AtEnd s ∧ t = { s with run := .halted }) ∨
     (¬ AtEnd s ∧ AtLimit s ∧ t = { s with run := .stepLimited }) ∨
     (¬ AtEnd s ∧ ¬ AtLimit s ∧ ∃ op, decodeAt s.prog s.pc = .error (.unknownOpcode op) ∧
        t = raiseFault .unknownOpcode s.pc op s) ∨
     (¬ AtEnd s ∧ ¬ AtLimit s ∧ ∃ op, decodeAt s.prog s.pc = .error (.truncatedInstruction op) ∧
        t = raiseFault .truncatedInstruction s.pc op s) ∨
     (¬ AtEnd s ∧ ¬ AtLimit s ∧ ∃ i n, decodeAt s.prog s.pc = .ok (i, n) ∧ exec i s = .next t)) := by
  cases hr : s.run with
  | running =>
    refine ⟨rfl, ?_⟩
    rw [step_of_running hr, cycle] at h
    by_cases h1 : AtEnd s
    · rw [if_pos h1] at h; cases h; exact .inl ⟨h1, rfl⟩
    · rw [if_neg h1] at h
      by_cases h2 : AtLimit s
      · rw [if_pos h2] at h; cases h; exact .inr (.inl ⟨h1, h2, rfl⟩)
      · rw [if_neg h2] at h
        rw [fetchDecode] at h
        split at h
        · exact .inr (.inr (.inr (.inr ⟨h1, h2, _, _, ‹_›, h⟩)))
        · cases h; exact .inr (.inr (.inl ⟨h1, h2, _, ‹_›, rfl⟩))
        · cases h; exact .inr (.inr (.inr (.inl ⟨h1, h2, _, ‹_›, rfl⟩)))
        · cases h
  | ready => simp [step, hr] at h
  | halted => simp [step, hr] at h
  | faulted => simp [step, hr] at h
  | stepLimited => simp [step, hr] at h

/-- A run of one step more: the step, then the rest of the run. -/
theorem run_succ {k : Nat} {s t : State} (h : step s = .next t) :
    Host.Core.run core (k + 1) s = Host.Core.run core k t := by
  have h' : core.step s = .next t := h
  exact (Host.Core.run.eq_2 core s k).trans (by rw [h'])

end Sys2Proof.Machine
end

