-- ==== Sys2Proof/Tests/Slice0.lean ====
section
/-! SUPPORT. The model's own tests. Expected values are those of 95_test_vectors.md (S, V), which were
computed from the rules and not by this model. Then, for each statement with hypotheses, a concrete case
that meets them together. -/

namespace Sys2Proof.Tests

open Sys2Proof Sys2Proof.Machine

/-! ## Helpers -/

/-- A running machine at the start of a program, from reset. -/
def started (cfg : Config) (prog : List Byte) : State :=
  { State.afterReset cfg prog with run := .running }

/-- The default instance running a program. -/
def running (prog : List Byte) : State := started Config.default prog

/-- The next state, if there is one. -/
def nextOf {σ : Type} (o : Host.Outcome σ Fault Refusal) : Option σ :=
  match o with
  | .next s => some s
  | .fault _ => none
  | .refused _ => none

/-- The named stop, if there is one. -/
def faultOf {σ : Type} (o : Host.Outcome σ Fault Refusal) : Option Fault :=
  match o with
  | .next _ => none
  | .fault r => some r
  | .refused _ => none

/-- The named refusal, if there is one. -/
def refusalOf {σ : Type} (o : Host.Outcome σ Fault Refusal) : Option Refusal :=
  match o with
  | .next _ => none
  | .fault _ => none
  | .refused r => some r

/-- The instruction and length decoded, if any. -/
def decoded (bytes : List Byte) : Option (Instr × Nat) :=
  match decode bytes with
  | .ok r => some r
  | .error _ => none

/-- The reason the decoder gives no instruction, if it gives none. -/
def decodeFailure (bytes : List Byte) : Option DecodeFailure :=
  match decode bytes with
  | .ok _ => none
  | .error e => some e

/-- The bytes encoded, if any. -/
def encoded (i : Instr) : Option (List Byte) :=
  match encode i with
  | .ok b => some b
  | .error _ => none

/-- The reason a row is not encoded, if it is not. -/
def rowError (op : Byte) (operands : List Int) : Option EncodeError :=
  match encodeRow op operands with
  | .ok _ => none
  | .error e => some e

/-- Run state and fault record. -/
structure Record where
  run : RunState
  fcause : FaultCause
  fpc : Nat
  fopcode : Byte
  faddr : Int
deriving DecidableEq, Repr

/-- The run state and fault record of a state. -/
def record (s : State) : Record := ⟨s.run, s.fcause, s.fpc, s.fopcode, s.faddr⟩

/-! ## WellFormed: an ill-formed term for each check -/

theorem test_wf_loadConst_high : ¬ (Instr.loadConst 0 4096).WellFormed := by decide
theorem test_wf_loadConst_low : ¬ (Instr.loadConst 0 (-4097)).WellFormed := by decide
theorem test_wf_readMem_high : ¬ (Instr.readMem 4096 0 0).WellFormed := by decide
theorem test_wf_readMem_low : ¬ (Instr.readMem (-4097) 0 0).WellFormed := by decide
theorem test_wf_shiftRight_operand_high : ¬ (Instr.shiftRight 0 8388608 0 0).WellFormed := by decide
theorem test_wf_shiftRight_operand_low : ¬ (Instr.shiftRight 0 (-1) 0 0).WellFormed := by decide
theorem test_wf_shiftRight_offset_high : ¬ (Instr.shiftRight 0 0 4096 0).WellFormed := by decide
theorem test_wf_shiftRight_offset_low : ¬ (Instr.shiftRight 0 0 (-4097) 0).WellFormed := by decide
theorem test_wf_all_ones : (Instr.shiftRight 7 8388607 (-1) 7).WellFormed := by decide

/-! ## Encoding, from S1 to S4 and V1 to V32 -/

theorem test_decode_loadConst : decoded [0xEA, 0x05, 0xC0] = some (.loadConst 5 (-2048), 3) := by
  decide
theorem test_decode_loadConst_all_ones : decoded [0xEA, 0xFF, 0xFF] = some (.loadConst 7 (-1), 3) := by
  decide
theorem test_decode_readMem : decoded [0x66, 0x00, 0x21, 0x00] = some (.readMem 256 1 0, 4) := by
  decide
theorem test_decode_readMem_padding :
    decoded [0x66, 0xE6, 0xC1, 0xF9] = some (.readMem 486 6 1, 4) := by decide
theorem test_decode_writeMem : decoded [0x5A, 0x38] = some (.writeMem 0 7, 2) := by decide
theorem test_decode_writeMem_padding : decoded [0x5A, 0xD5] = some (.writeMem 5 2, 2) := by decide
theorem test_decode_shiftRight :
    decoded [0xE0, 0x25, 0x0D, 0x00, 0x44, 0x89, 0x01] = some (.shiftRight 5 420 593 3, 7) := by
  decide
theorem test_decode_shiftRight_spans :
    decoded [0xE0, 0x0A, 0x00, 0x00, 0xFC, 0x7F, 0x02] = some (.shiftRight 2 1 (-1) 4, 7) := by
  decide
theorem test_decode_unknown_in_last_byte :
    decodeFailure [0xFF] = some (.unknownOpcode 0xFF) := by decide
theorem test_decode_six_of_seven :
    decodeFailure [0xE0, 0, 0, 0, 0, 0] = some (.truncatedInstruction 0xE0) := by decide
theorem test_decode_past_end : decodeFailure [] = some .noByte := by decide
theorem test_encode_loadConst : encoded (.loadConst 2 455) = some [0xEA, 0x3A, 0x0E] := by decide
theorem test_encode_readMem : encoded (.readMem (-1) 3 2) = some [0x66, 0xFF, 0x7F, 0x02] := by decide
theorem test_encode_writeMem : encoded (.writeMem 7 7) = some [0x5A, 0x3F] := by decide
theorem test_encode_shiftRight :
    encoded (.shiftRight 7 8388607 (-4096) 7) = some [0xE0, 0xFF, 0xFF, 0xFF, 0x03, 0xC0, 0x03] := by
  decide
theorem test_encode_refuses_register_8 : rowError 234 [8, 0] = some .fieldOverflow := by decide
theorem test_encode_refuses_opcode_0 : rowError 0 [] = some .unknownOpcode := by decide
/-- The bytes of a program, or none. -/
def programBytes (rows : List (Byte × List Int)) : Option (List Byte) :=
  match encodeProgram rows with
  | .ok bytes => some bytes
  | .error _ => none

/-- The row an assembly stops at and why, or none. -/
def programError (rows : List (Byte × List Int)) : Option (Nat × EncodeError) :=
  match encodeProgram rows with
  | .ok _ => none
  | .error e => some e

/-- 95_test_vectors.md, the first three rows of program P1. -/
theorem test_encode_program :
    programBytes [(234, [1, 100]), (234, [2, -7]), (90, [2, 1])] =
      some [0xEA, 0x21, 0x03, 0xEA, 0xCA, 0xFF, 0x5A, 0x0A] := by decide

/-- 30_encoding.md R110: the first offending row is named. -/
theorem test_encode_program_names_the_row :
    programError [(234, [1, 100]), (90, [8, 1]), (0, [])] = some (1, .fieldOverflow) := by decide

theorem test_decodeTableWord :
    decodeTableWord 56 0x018944000D25E0 = some (.shiftRight 5 420 593 3) := by decide

/-! ## One step of each instruction, from V50 to V92 -/

/-- V52. -/
theorem test_loadConst_negative :
    (nextOf (exec (.loadConst 7 (-4096)) (running []))).map
      (fun t => (readReg t 7, t.pc, t.steps)) = some (0xFFFFF000, 3, 1) := by decide

/-- V63: a negative base and a positive offset. -/
theorem test_readMem_negative_base :
    (nextOf (exec (.readMem 5 2 1)
      { writeReg (running []) 1 0xFFFFFFFF with mem := [(4, 0x11)] })).map
      (fun t => (readReg t 2, record t)) = some (0x11, ⟨.running, .none, 0, 0, 0⟩) := by decide

/-- V69: the smallest address does not wrap; `pc` stays advanced and no register is written. -/
theorem test_readMem_smallest_address :
    (nextOf (exec (.readMem (-4096) 0 1) (writeReg (running []) 1 0x80000000))).map
      (fun t => (record t, t.pc, t.steps, readReg t 0)) =
      some (⟨.faulted, .memoryBounds, 0, 102, -2147487744⟩, 4, 1, 0) := by decide

/-- V70. -/
theorem test_writeMem_stores :
    (nextOf (exec (.writeMem 5 2) (writeReg (writeReg (running []) 5 0xFF) 2 0x10))).map
      (fun t => (t.mem, t.pc)) = some ([(16, 0xFF)], 2) := by decide

/-- V73: the address MEM_SIZE faults. -/
theorem test_writeMem_at_memSize :
    (nextOf (exec (.writeMem 1 2)
      (writeReg (writeReg (running []) 1 0x12345678) 2 0x00010000))).map
      (fun t => (t.mem, record t)) = some ([], ⟨.faulted, .memoryBounds, 0, 90, 65536⟩) := by decide

/-- V82: the shift is logical. -/
theorem test_shiftRight_logical :
    (nextOf (exec (.shiftRight 1 1 1 2)
      (writeReg (writeReg (running []) 1 0xFFFFF000) 2 0x64))).map
      (fun t => (t.mem, readReg t 1)) = some ([(101, 0x7FFFF800)], 0xFFFFF000) := by decide

/-- V86: an amount of 33 is not a shift by 1; the old word is overwritten by 0, which lists nothing. -/
theorem test_shiftRight_33 :
    (nextOf (exec (.shiftRight 1 33 5 2)
      { writeReg (writeReg (running []) 1 0xFFFFF000) 2 0x64 with mem := [(105, 0xFFFFFFFF)] })).map
      (fun t => t.mem) = some [] := by decide

/-! ## One step of the machine, from V33 to V42 and V95 to V97 -/

theorem test_step_empty_program :
    (nextOf (step (running []))).map (fun t => (t.run, t.pc, t.steps)) = some (.halted, 0, 0) := by
  decide
theorem test_step_unknown_opcode :
    (nextOf (step (running [0x00]))).map (fun t => (record t, t.pc, t.steps)) =
      some (⟨.faulted, .unknownOpcode, 0, 0, 0⟩, 0, 0) := by decide
theorem test_step_truncated :
    (nextOf (step (running [0x66, 0, 0]))).map (fun t => (record t, t.pc, t.steps)) =
      some (⟨.faulted, .truncatedInstruction, 0, 0x66, 0⟩, 0, 0) := by decide
theorem test_step_bounds :
    (nextOf (step (running [0x66, 0xFF, 0x1F, 0x00]))).map (fun t => (record t, t.pc, t.steps)) =
      some (⟨.faulted, .memoryBounds, 0, 102, -1⟩, 4, 1) := by decide
theorem test_step_ceiling_zero :
    (nextOf (step (started ⟨65536, 65536, some 0⟩ [0xEA, 0x08, 0x00]))).map
      (fun t => (record t, t.pc)) = some (⟨.stepLimited, .none, 0, 0, 0⟩, 0) := by decide
theorem test_step_end_before_ceiling :
    (nextOf (step (started ⟨65536, 65536, some 0⟩ []))).map (fun t => t.run) = some .halted := by
  decide
theorem test_step_from_reset : faultOf (step State.reset) = some .notStarted := by decide
theorem test_step_withFetchWord :
    (nextOf (step (State.reset.withFetchWord 24 0x0E3AEA))).map (fun t => (readReg t 2, t.pc)) =
      some (0x1C7, 3) := by decide
theorem test_pcWidth_default : Config.default.pcWidth = 17 := by decide
theorem test_build_checks_memSize :
    refusalOf (State.build ⟨0, 65536, none⟩ []) = some .badParameters := by decide
theorem test_build_checks_progMax :
    refusalOf (State.build ⟨1, 1, none⟩ [0, 0]) = some .programTooLong := by decide
theorem test_status_of_a_bounds_fault :
    (nextOf (step (running [0x66, 0xFF, 0x1F, 0x00]))).map
      (fun t => ((statusOf t).run, (statusOf t).fcause, (statusOf t).faddr)) =
      some (3, 3, 0x1FFFFFFFF) := by decide

/-! ## Witnesses: a case that meets the hypotheses of each statement together, one for each clause -/

/-- Steps to a next state in a given way. -/
abbrev StepsTo (s : State) (p : State → Bool) : Prop := (nextOf (step s)).map p = some true

theorem witness_FieldsAreTheirBitsAlone :
    ∀ k < 24, fieldLoadConstC.lo ≤ k → Nat.testBit 0x1007FF k = Nat.testBit 0x100000 k := by decide

theorem witness_SignedFieldsExtend :
    fieldShiftRightD ∈ Variant.shiftRight.layout.fields ∧ fieldShiftRightD.kind = .signed := by decide

theorem witness_EncoderPlacesFields :
    (Instr.readMem (-4096) 7 7).WellFormed ∧
      (0xFF : Byte) ≠ 234 ∧ (0xFF : Byte) ≠ 102 ∧ (0xFF : Byte) ≠ 90 ∧ (0xFF : Byte) ≠ 224 := by
  decide

theorem witness_EncoderRangePolicy :
    [7, 8388607, -4096, (7 : Int)].length = Variant.shiftRight.layout.fields.length ∧
      ([] : List Int).length ≠ Variant.shiftRight.layout.fields.length := by decide

theorem witness_DecodeEncodeRoundTrip :
    (Instr.loadConst 7 (-4096)).WellFormed ∧ (Instr.readMem 4095 7 0).WellFormed ∧
      (Instr.writeMem 7 7).WellFormed ∧ (Instr.shiftRight 7 8388607 (-4096) 7).WellFormed := by decide

theorem witness_EncodeDecodeClearsPadding :
    decoded [0x5A, 0xFF] = some (.writeMem 7 7, 2) := by decide

theorem witness_PaddingAloneIsIgnored :
    ([0xE6, 0xC1, 0x01] : List Byte).length + 1 = Variant.readMem.layout.bytes ∧
      ([0xE6, 0xC1, 0xF9] : List Byte).length + 1 = Variant.readMem.layout.bytes ∧
      ∀ k < 27, (accumulate [0x66, 0xE6, 0xC1, 0x01]).testBit k =
        (accumulate [0x66, 0xE6, 0xC1, 0xF9]).testBit k := by decide

theorem witness_FetchIsLittleEndian :
    7 ∈ [2, 3, 4, 7] ∧ 0 + 7 ≤ (running [0xE0, 0x25, 0x0D, 0x00, 0x44, 0x89, 0x01]).progLen := by
  decide

theorem witness_StepRunsDecodedInstruction :
    (running [0x5A, 0x15]).run = .running ∧ ¬ AtLimit (running [0x5A, 0x15]) ∧
      decoded ((running [0x5A, 0x15]).prog.drop (running [0x5A, 0x15]).pc) =
        some (.writeMem 5 2, 2) ∧
      StepsTo (running [0x5A, 0x15]) (fun t => t.pc = 2) := by decide

theorem witness_HaltsExactlyAtEnd :
    (running []).run = .running ∧ (running []).pc = (running []).progLen ∧
      (running []).prog = [] ∧ StepsTo (running []) (fun t => t.run = .halted) := by decide

theorem witness_CeilingStopsBeforeFetch :
    (started ⟨1, 1, some 0⟩ [0xFF]).run = .running ∧
      (started ⟨1, 1, some 0⟩ [0xFF]).pc ≠ (started ⟨1, 1, some 0⟩ [0xFF]).progLen ∧
      (started ⟨1, 1, some 0⟩ [0xFF]).cfg.stepLimit = some (started ⟨1, 1, some 0⟩ [0xFF]).steps ∧
      StepsTo (started ⟨1, 1, some 0⟩ [0xFF]) (fun t => t.run = .stepLimited) := by decide

theorem witness_NoStepOutsideRunning :
    State.reset.run = .ready ∧ { State.reset with run := .halted }.run = .halted ∧
      { State.reset with run := .faulted }.run = .faulted ∧
      { State.reset with run := .stepLimited }.run = .stepLimited ∧
      { State.reset with run := .halted }.run.terminal = true ∧
      HostMove.start ≠ HostMove.reset ∧
      nextOf (hostMove .start { State.reset with run := .halted }) =
        some { State.reset with run := .halted } := by decide

theorem witness_RunningIsNeverStuck :
    (running [0xFF]).run = .running ∧ (running [0xFF]).pc ≤ (running [0xFF]).progLen ∧
      ¬ AtLimit { running [0xFF] with pc := 2 } ∧
      { running [0xFF] with pc := 2 }.progLen < { running [0xFF] with pc := 2 }.pc := by decide

theorem witness_UnknownOpcodeIsFatal :
    ¬ AtLimit (running [0xFF]) ∧ (running [0xFF]).prog.drop (running [0xFF]).pc = [0xFF] ∧
      (0xFF : Byte) ≠ 234 ∧ (0xFF : Byte) ≠ 102 ∧ (0xFF : Byte) ≠ 90 ∧ (0xFF : Byte) ≠ 224 := by
  decide

theorem witness_TruncatedInstructionFaults_short :
    (running [0xE0, 0, 0, 0, 0, 0]).run = .running ∧ ¬ AtLimit (running [0xE0, 0, 0, 0, 0, 0]) ∧
      (running [0xE0, 0, 0, 0, 0, 0]).prog.drop 0 = 0xE0 :: [0, 0, 0, 0, 0] ∧
      ((0xE0 : Byte), 7) ∈ [((234 : Byte), 3), (102, 4), (90, 2), (224, 7)] ∧
      (running [0xE0, 0, 0, 0, 0, 0]).progLen < (running [0xE0, 0, 0, 0, 0, 0]).pc + 7 := by decide

theorem witness_TruncatedInstructionFaults_complete :
    ((0x5A : Byte), 2) ∈ [((234 : Byte), 3), (102, 4), (90, 2), (224, 7)] ∧
      (running [0x5A, 0]).prog.drop 0 = 0x5A :: [0] ∧
      (running [0x5A, 0]).pc + 2 ≤ (running [0x5A, 0]).progLen := by decide

theorem witness_FaultPriority_unknown :
    (running [0x00]).fcause = .none ∧ (running [0x00]).prog.drop 0 = 0x00 :: [] ∧
      lengthOf 0x00 = none ∧ StepsTo (running [0x00]) (fun t => t.fcause = .unknownOpcode) := by decide

theorem witness_FaultPriority_truncated :
    lengthOf 0x66 = some 4 ∧ (running [0x66, 0xFF, 0x1F]).progLen < 0 + 4 ∧
      StepsTo (running [0x66, 0xFF, 0x1F]) (fun t => t.fcause = .truncatedInstruction) := by decide

theorem witness_FaultPriority_bounds :
    lengthOf 0x66 = some 4 ∧ 0 + 4 ≤ (running [0x66, 0xFF, 0x1F, 0x00]).progLen ∧
      decoded [0x66, 0xFF, 0x1F, 0x00] = some (.readMem (-1) 0 0, 4) ∧
      accessAddress (.readMem (-1) 0 0) (running [0x66, 0xFF, 0x1F, 0x00]) = some (-1) ∧
      StepsTo (running [0x66, 0xFF, 0x1F, 0x00]) (fun t => t.fcause = .memoryBounds) := by decide

theorem witness_FaultPriority_none :
    decoded [0x66, 0x00, 0x00, 0x00] = some (.readMem 0 0 0, 4) ∧
      accessAddress (.readMem 0 0 0) (running [0x66, 0, 0, 0]) = some 0 ∧
      StepsTo (running [0x66, 0, 0, 0]) (fun t => t.fcause = .none) := by decide

/-- An advance, a step that moves nothing, and the advance of an instruction that then faults. -/
theorem witness_PcMovesOnlyByTheAdvance :
    decoded ((running [0xEA, 0, 0]).prog.drop 0) = some (.loadConst 0 0, 3) ∧
      (running [0xEA, 0, 0]).run = .running ∧ ¬ AtLimit (running [0xEA, 0, 0]) ∧
      StepsTo (running [0xEA, 0, 0]) (fun t => t.pc = 3) ∧
      StepsTo (running [0]) (fun t => t.pc = 0) ∧
      StepsTo (running [0x66, 0xFF, 0x1F, 0x00]) (fun t => t.pc = 4 ∧ t.run = .faulted) := by decide

theorem witness_RunStateTransitions :
    StepsTo (running [0x5A, 0]) (fun t => t.run = .running ∧ t.pc = 2) ∧
      (nextOf (hostMove .reset (running []))).map (fun t => t.run) = some .ready ∧
      (nextOf (hostMove .start State.reset)).map (fun t => t.run) = some .running ∧
      (nextOf (hostMove (.load [0]) State.reset)).map (fun t => t.run) = some .ready := by decide

theorem witness_RunsTerminate :
    (running [0x5A, 0]).run = .running ∧ (running [0x5A, 0]).pc ≤ (running [0x5A, 0]).progLen := by
  decide

theorem witness_LoadConstResult : (Instr.loadConst 0 (-4096)).WellFormed := by decide

theorem witness_ReadMemResult_inBounds :
    (65535 : Int) = sint (readReg (writeReg (running []) 1 0xF000) 1) + 4095 ∧
      (0 : Int) ≤ 65535 ∧ (65535 : Int) < ((running []).cfg.memSize : Int) := by decide

theorem witness_ReadMemResult_outOfBounds :
    (65536 : Int) = sint (readReg (writeReg (running []) 1 0xF001) 1) + 4095 ∧
      ((running []).cfg.memSize : Int) ≤ 65536 := by decide

theorem witness_WriteMemResult_inBounds :
    { running [] with mem := [(0, 1)] }.mem.wf = true ∧
      (65535 : Int) = sint (readReg (writeReg (running []) 2 0xFFFF) 2) ∧
      (65535 : Int) < ((running []).cfg.memSize : Int) := by decide

theorem witness_WriteMemResult_outOfBounds :
    (running []).mem.wf = true ∧ (-1 : Int) = sint (readReg (writeReg (running []) 2 0xFFFFFFFF) 2) ∧
      (-1 : Int) < 0 := by decide

theorem witness_ShiftRightResult_inBounds :
    (Instr.shiftRight 5 ((8388607 : Nat) : Int) (-10) 3).WellFormed ∧ (running []).mem.wf = true ∧
      (0 : Int) = sint (readReg (writeReg (running []) 3 10) 3) + -10 ∧
      (0 : Int) < ((running []).cfg.memSize : Int) := by decide

theorem witness_ShiftRightResult_outOfBounds :
    (Instr.shiftRight 5 ((31 : Nat) : Int) (-11) 3).WellFormed ∧ (running []).mem.wf = true ∧
      (-1 : Int) = sint (readReg (writeReg (running []) 3 10) 3) + -11 ∧ (-1 : Int) < 0 := by decide

theorem witness_ShifterFunction :
    ((-1 : Int) < 0) ∧ ((0 : Int) ≤ 31 ∧ (31 : Int) ≤ 31) ∧ (32 : Int) ≤ 32 ∧
      lsr32 0xFFFFFFFF (-1) = 0xFFFFFFFF ∧ lsr32 0xFFFFFFFF 31 = 1 ∧ lsr32 0xFFFFFFFF 32 = 0 := by
  decide

theorem witness_RegisterWriteFrame :
    (nextOf (exec (.loadConst 3 (-1)) (running []))).map (fun t => readReg t 3) =
        some 0xFFFFFFFF ∧
      (nextOf (exec (.readMem (-1) 3 0) (running []))).map (fun t => t.run) = some .faulted := by decide

theorem witness_StoreFrame :
    accessAddress (.writeMem 1 0) (writeReg (running []) 1 7) = some 0 ∧
      (nextOf (exec (.writeMem 1 0) (writeReg (running []) 1 7))).map (fun t => t.mem) =
        some [(0, 7)] ∧
      accessAddress (.shiftRight 1 1 1 0) (writeReg (running []) 1 7) = some 1 ∧
      (nextOf (exec (.shiftRight 1 1 1 0) (writeReg (running []) 1 7))).map (fun t => t.mem) =
        some [(1, 3)] := by decide

/-- Two register files that agree on what READ_MEM reads and differ elsewhere. -/
theorem witness_RegisterFileControl :
    (∀ r, r ∈ registersRead (.readMem 0 2 1) →
      readReg { running [] with regs := (writeReg (running []) 5 9).regs } r = readReg (running []) r) ∧
      readReg { running [] with regs := (writeReg (running []) 5 9).regs } 5 ≠ readReg (running []) 5 ∧
      (nextOf (exec (.readMem 0 2 1)
        { running [] with regs := (writeReg (running []) 5 9).regs })).isSome = true ∧
      accessAddress (.readMem (-1) 2 1) (running []) = some (-1) ∧
      ¬ InBounds (running []).cfg (-1) := by decide

theorem witness_DataMemoryControl :
    StepsTo (writeReg (running [0x5A, 0x05]) 5 7) (fun t => t.mem.read 0 ≠ 0) := by decide

theorem witness_MemoryPrimitives :
    Memory.wf [(0, 1)] = true ∧ ((0 : Int) ≤ 65535 ∧ (65535 : Int) < ((running []).cfg.memSize : Int)) ∧
      ¬ ((0 : Int) ≤ 65536 ∧ (65536 : Int) < ((running []).cfg.memSize : Int)) := by decide

theorem witness_CanonicalMemoriesAreEqual :
    Memory.wf [(0, 1), (65535, 2)] = true ∧ Memory.wf (Memory.write [(0, 1)] 65535 2) = true := by
  decide

theorem witness_LoadSeesTheStore :
    accessAddress (.writeMem 5 0) (writeReg (running []) 5 7) = some 0 ∧
      InBounds (running []).cfg 0 ∧ (running []).mem.wf = true ∧
      (nextOf (exec (.writeMem 5 0) (writeReg (running []) 5 7))).map
        (fun t => accessAddress (.readMem 0 3 1) t) = some (some 0) ∧
      (nextOf (exec (.shiftRight 5 0 (-7) 5) (writeReg (running []) 5 7))).map
        (fun t => accessAddress (.readMem 0 3 1) t) = some (some 0) := by decide

theorem witness_BoundsCheckIsUnsignedCompare :
    (⟨2 ^ 31 - 4096, 1, none⟩ : Config).memSize ≤ 2 ^ 31 - 4096 ∧ InSigned13 (-4096) ∧
      InBounds ⟨2 ^ 31 - 4096, 1, none⟩ (sint 0x1000 + -4096) := by decide

theorem witness_MemoryBoundsReport :
    (running [0x66, 0xFF, 0x1F, 0x00]).run = .running ∧
      ¬ AtLimit (running [0x66, 0xFF, 0x1F, 0x00]) ∧
      decoded ((running [0x66, 0xFF, 0x1F, 0x00]).prog.drop 0) = some (.readMem (-1) 0 0, 4) ∧
      accessAddress (.readMem (-1) 0 0) (running [0x66, 0xFF, 0x1F, 0x00]) = some (-1) := by decide

theorem witness_FaultsArePrecise :
    StepsTo (running [0x66, 0xFF, 0x1F, 0x00]) (fun t => t.run = .faulted) := by decide

theorem witness_HostProtocol :
    State.reset.run = .ready ∧ (running []).run ≠ .ready ∧
      ([0x5A] : List Byte).length ≤ State.reset.cfg.progMax ∧
      (⟨1, 1, none⟩ : Config).progMax < ([0x5A, 0] : List Byte).length ∧
      (nextOf (hostMove .start State.reset)).isSome = true ∧
      (nextOf (hostMove .reset (running [0]))).isSome = true := by decide

/-- A readable range at the end of memory, the status read beside it, and a range past the end. -/
theorem witness_HostReads :
    State.reset.run ≠ .running ∧ 65534 ≤ 65535 ∧ 65535 < State.reset.cfg.memSize ∧
      (running []).run = .running ∧ State.reset.cfg.memSize ≤ 65536 := by decide

/-- A code and a cause of each list, met by a faulted state. -/
theorem witness_StatusOutputsCarryTheState :
    (RunState.faulted, (3 : BitVec 3)) ∈ [(RunState.ready, (0 : BitVec 3)), (.running, 1),
      (.halted, 2), (.faulted, 3), (.stepLimited, 4)] ∧
      (FaultCause.unknownOpcode, (1 : BitVec 2)) ∈ [(FaultCause.none, (0 : BitVec 2)),
        (.unknownOpcode, 1), (.truncatedInstruction, 2), (.memoryBounds, 3)] ∧
      StepsTo (running [0]) (fun t => (statusOf t).run = 3 ∧ (statusOf t).fcause = 1) := by decide

theorem witness_RunsFromResetAreIdentical :
    { writeReg (running [0]) 1 7 with cfg := ⟨65536, 1, none⟩ }.prog = (running [0]).prog ∧
      (⟨65536, 1, none⟩ : Config).memSize = (running [0]).cfg.memSize ∧
      (⟨65536, 1, none⟩ : Config).stepLimit = (running [0]).cfg.stepLimit ∧
      (⟨65536, 1, none⟩ : Config) ≠ (running [0]).cfg ∧
      (nextOf (Host.Core.run core 1 (hostStart (hostReset (running [0]))))).isSome = true := by decide

theorem witness_ProgramNeverChangesInARun :
    StepsTo (running [0x5A, 0]) (fun t => t.prog = [0x5A, 0]) ∧
      (nextOf (hostMove .reset (running [0]))).map (fun t => t.prog) = some [0] := by decide

theorem witness_InvAtReset : (⟨2 ^ 31, 2 ^ 32, some 0⟩ : Config).valid = true ∧
    ([0] : List Byte).length ≤ (⟨2 ^ 31, 2 ^ 32, some 0⟩ : Config).progMax := by decide

/-- A running state that meets the invariant. -/
theorem inv_running : Inv (running [0x5A, 0]) where
  params := by decide
  programFits := by decide
  pcBoundary := rfl
  withinLimit := fun _ h => by cases h
  memCanonical := rfl
  memInside := rfl
  causeIffFaulted := by decide
  record := ⟨rfl, rfl, rfl⟩
  haltedAtEnd := by decide
  limitedAtLimit := by decide
  readyIsReset := by decide

theorem witness_StepKeepsInv :
    Inv (running [0x5A, 0]) ∧ (nextOf (step (running [0x5A, 0]))).isSome = true :=
  ⟨inv_running, by decide⟩

theorem witness_HostMoveKeepsInv :
    Inv (running [0x5A, 0]) ∧ (nextOf (hostMove .reset (running [0x5A, 0]))).isSome = true :=
  ⟨inv_running, by decide⟩

theorem witness_StatusWidthsSuffice : Inv (running [0x5A, 0]) := inv_running

theorem witness_ReachableStatesAreSound : Reachable (running [0x5A, 0]) :=
  .moved (State.afterReset Config.default [0x5A, 0]) _ .start (.built Config.default [0x5A, 0] _ rfl) rfl

theorem makeable_zero : Makeable 0 := ⟨0, 0, by decide, by decide⟩

theorem witness_OnlyMakeableWordsAppear :
    (running [0x5A, 0]).mem.wf = true ∧ AllMakeable (running [0x5A, 0]) ∧
      (nextOf (step (running [0x5A, 0]))).isSome = true := by
  refine ⟨rfl, ⟨fun r => ?_, fun _ => makeable_zero⟩, by decide⟩
  have h : readReg (running [0x5A, 0]) r = 0 :=
    readReg_afterReset Config.default [0x5A, 0] r
  rw [h]
  exact makeable_zero

theorem witness_WellFormedProgramsRunToHalted :
    (∀ i ∈ [Instr.writeMem 0 0], i.WellFormed) ∧
      (running [0x5A, 0]).prog = [Instr.writeMem 0 0].flatMap Instr.bytes ∧
      (running [0x5A, 0]).run = .running ∧ (running [0x5A, 0]).pc = 0 ∧
      (running [0x5A, 0]).steps = 0 ∧
      (∀ limit, (running [0x5A, 0]).cfg.stepLimit = some limit → 1 ≤ limit) ∧
      (∀ (before after : List Instr) (i : Instr) (t : State) (addr : Int),
        [Instr.writeMem 0 0] = before ++ i :: after →
        execAll before (running [0x5A, 0]) = .next t → accessAddress i t = some addr →
        InBounds (running [0x5A, 0]).cfg addr) := by
  refine ⟨by decide, by decide, rfl, rfl, rfl, (fun _ h => by cases h), ?_⟩
  intro before after i t addr hsplit hrun haddr
  cases before with
  | nil =>
    cases hsplit
    cases hrun
    cases haddr
    decide
  | cons j before =>
    simp at hsplit

end Sys2Proof.Tests
end

section
/-! The shifter function of 00_scope.md R15: the clamp of a negative amount, then the logical shift of
`lsr32_eq_ushiftRight`, one lemma per range of the amount. -/

namespace Sys2Proof.Machine

theorem clampAmount_of_neg {amt : Int} (h : amt < 0) : clampAmount amt = 0 := by
  simp [clampAmount, diagNegshift, h]

theorem clampAmount_of_nonneg {amt : Int} (h : 0 ≤ amt) : clampAmount amt = amt.toNat := by
  simp [clampAmount, diagNegshift, h]

theorem lsr32_of_neg (w : Word) {amt : Int} (h : amt < 0) : lsr32 w amt = w := by
  rw [lsr32_eq_ushiftRight, clampAmount_of_neg h, BitVec.ushiftRight_zero]

theorem lsr32_of_nonneg (w : Word) {amt : Int} (h : 0 ≤ amt) : lsr32 w amt = w >>> amt.toNat := by
  rw [lsr32_eq_ushiftRight, clampAmount_of_nonneg h]

theorem lsr32_of_ge_width (w : Word) {amt : Int} (h : 32 ≤ amt) : lsr32 w amt = 0 := by
  rw [lsr32_of_nonneg w (by omega)]
  exact BitVec.ushiftRight_eq_zero (by omega)

theorem uint_lsr32_of_nonneg (w : Word) {amt : Int} (h : 0 ≤ amt) :
    uint (lsr32 w amt) = uint w / 2 ^ amt.toNat := by
  rw [lsr32_of_nonneg w h, uint, BitVec.toNat_ushiftRight, Nat.shiftRight_eq_div_pow, uint]

/-- Bit `k` of the result is bit `k + amt` of the word, and 0 where the word has no such bit. -/
theorem getLsbD_lsr32_of_nonneg (w : Word) {amt : Int} (h : 0 ≤ amt) (k : Nat) :
    (lsr32 w amt).getLsbD k = (decide (k + amt.toNat < 32) && w.getLsbD (k + amt.toNat)) := by
  rw [lsr32_of_nonneg w h, BitVec.getLsbD_ushiftRight, Nat.add_comm]
  by_cases hk : k + amt.toNat < 32
  · simp [hk]
  · simp [hk, BitVec.getLsbD_of_ge w _ (not_lt.mp hk)]

/-- Settles O26: one lemma for each of the three ranges of the amount. -/
theorem shifterFunction : Obligations.ShifterFunction := by
  intro w amt
  refine ⟨lsr32_of_neg w, fun h _ => ⟨?value, ?bits⟩, lsr32_of_ge_width w⟩
  case value => exact uint_lsr32_of_nonneg w h
  case bits => exact fun k _ => getLsbD_lsr32_of_nonneg w h k

end Sys2Proof.Machine
end

section
/-! The effect of an instruction, stated once for all four: the word it moves, and the three ways it
ends (a fault, one register written, one word stored). Its frames follow from these (10_state.md R22). -/

namespace Sys2Proof.Machine

/-- The word an instruction moves: into its register where it writes one, else into data memory. -/
def wordMoved (i : Instr) (s : State) : Word :=
  match i with
  | .loadConst _ const13 => to32 const13
  | .readMem offset13 _ baseReg => s.mem.read (effectiveAddress s baseReg offset13).toNat
  | .writeMem srcReg _ => readReg s srcReg
  | .shiftRight valReg shiftOperand _ _ => lsr32 (readReg s valReg) shiftOperand

/-- No data access of the instruction fails its bounds check. -/
def AccessInBounds (i : Instr) (s : State) : Prop :=
  ∀ addr, accessAddress i s = some addr → InBounds s.cfg addr

/-! ## What the effect depends on -/

/-- The address depends on no register but those read. -/
theorem accessAddress_congr {i : Instr} {s s' : State}
    (h : ∀ r ∈ registersRead i, readReg s' r = readReg s r) :
    accessAddress i s' = accessAddress i s := by
  cases i <;> simp_all [accessAddress, effectiveAddress, registersRead]

/-- The word depends on data memory and on no register but those read. -/
theorem wordMoved_congr {i : Instr} {s s' : State} (hmem : s'.mem = s.mem)
    (h : ∀ r ∈ registersRead i, readReg s' r = readReg s r) : wordMoved i s' = wordMoved i s := by
  cases i <;> simp_all [wordMoved, effectiveAddress, registersRead]

theorem exists_accessAddress_of_registerWritten_none {i : Instr}
    (h : registerWritten i = none) (s : State) : ∃ addr, accessAddress i s = some addr := by
  cases i with
  | loadConst r c => cases h
  | readMem off r base => cases h
  | writeMem r base => exact ⟨_, rfl⟩
  | shiftRight r amt off base => exact ⟨_, rfl⟩

/-! ## The three ways an instruction ends -/

theorem exec_of_not_inBounds {i : Instr} {s : State} {addr : Int}
    (ha : accessAddress i s = some addr) (h : ¬ InBounds s.cfg addr) :
    exec i s = .next (raiseFault (.memoryBounds addr) s.pc i.opcode (advance i.length s)) := by
  cases i with
  | loadConst r c => cases ha
  | readMem off r base => cases ha; exact exec_readMem_outOfBounds h
  | writeMem r base => cases ha; exact exec_writeMem_outOfBounds h
  | shiftRight r amt off base => cases ha; exact exec_shiftRight_outOfBounds h

theorem exec_of_registerWritten {i : Instr} {s : State} {r : RegIdx}
    (hr : registerWritten i = some r) (hb : AccessInBounds i s) :
    exec i s = .next (writeReg (advance i.length s) r (wordMoved i s)) := by
  cases i with
  | loadConst r' c => cases hr; exact exec_loadConst r c s
  | readMem off r' base => cases hr; exact exec_readMem_inBounds (hb _ rfl)
  | writeMem r' base => cases hr
  | shiftRight r' amt off base => cases hr

theorem exec_of_store {i : Instr} {s : State} {addr : Int} (hr : registerWritten i = none)
    (ha : accessAddress i s = some addr) (h : InBounds s.cfg addr) :
    exec i s = .next { advance i.length s with mem := s.mem.write addr.toNat (wordMoved i s) } := by
  cases i with
  | loadConst r c => cases hr
  | readMem off r base => cases hr
  | writeMem r base => cases ha; exact exec_writeMem_inBounds h
  | shiftRight r amt off base => cases ha; exact exec_shiftRight_inBounds h

/-- How an instruction leaves the state: its access failed the bounds check, or it wrote one register,
or it stored one word. -/
inductive InstrEffect (i : Instr) (s : State) : State → Prop where
  | faulted {addr : Int} (ha : accessAddress i s = some addr) (hb : ¬ InBounds s.cfg addr) :
      InstrEffect i s (raiseFault (.memoryBounds addr) s.pc i.opcode (advance i.length s))
  | wrote {r : RegIdx} (hr : registerWritten i = some r) (hb : AccessInBounds i s) :
      InstrEffect i s (writeReg (advance i.length s) r (wordMoved i s))
  | stored {addr : Int} (hr : registerWritten i = none) (ha : accessAddress i s = some addr)
      (hb : InBounds s.cfg addr) :
      InstrEffect i s { advance i.length s with mem := s.mem.write addr.toNat (wordMoved i s) }

/-- Every instruction answers a next state, in one of the three ways. -/
theorem exec_ends (i : Instr) (s : State) : ∃ t, exec i s = .next t ∧ InstrEffect i s t := by
  by_cases hb : AccessInBounds i s
  · cases hr : registerWritten i with
    | some r => exact ⟨_, exec_of_registerWritten hr hb, .wrote hr hb⟩
    | none =>
      obtain ⟨addr, ha⟩ := exists_accessAddress_of_registerWritten_none hr s
      exact ⟨_, exec_of_store hr ha (hb addr ha), .stored hr ha (hb addr ha)⟩
  · obtain ⟨addr, ha, hfails⟩ : ∃ addr, accessAddress i s = some addr ∧ ¬ InBounds s.cfg addr := by
      simpa only [AccessInBounds, not_forall, exists_prop] using hb
    exact ⟨_, exec_of_not_inBounds ha hfails, .faulted ha hfails⟩

theorem exec_effect {i : Instr} {s t : State} (h : exec i s = .next t) : InstrEffect i s t := by
  obtain ⟨t', ht', heffect⟩ := exec_ends i s
  cases h.symm.trans ht'
  exact heffect

/-! ## What every instruction does alike, and what it keeps -/

theorem exec_counted {i : Instr} {s t : State} (h : exec i s = .next t) : Counted i.length s t := by
  cases exec_effect h <;> exact ⟨rfl, rfl⟩

theorem exec_sameProgram {i : Instr} {s t : State} (h : exec i s = .next t) : SameProgram s t := by
  cases exec_effect h <;> exact ⟨rfl, rfl⟩

/-- An instruction completes and leaves the run state and the fault record alone, or its access fails
the bounds check and it faults, with no register and no word of memory changed. -/
theorem exec_completes_or_faults {i : Instr} {s t : State} (h : exec i s = .next t) :
    (t.run = s.run ∧ SameRecord s t) ∨
      (t.run = .faulted ∧ ¬ AccessInBounds i s ∧ SameRegs s t ∧ SameData s t) := by
  cases exec_effect h with
  | faulted ha hb => exact .inr ⟨rfl, fun hall => hb (hall _ ha), fun _ => rfl, fun _ => rfl⟩
  | wrote | stored => exact .inl ⟨rfl, rfl, rfl, rfl, rfl⟩

theorem exec_keeps_other_registers {i : Instr} {s t : State} (h : exec i s = .next t) {r : RegIdx}
    (hr : registerWritten i ≠ some r) : readReg t r = readReg s r := by
  cases exec_effect h with
  | faulted | stored => rfl
  | @wrote q hq hb =>
    have hne : q ≠ r := fun e => hr (e ▸ hq)
    rw [readReg_writeReg_other _ _ hne, readReg_advance]

theorem exec_sameRegs_of_not_inBounds {i : Instr} {s t : State} (h : exec i s = .next t)
    {addr : Int} (ha : accessAddress i s = some addr) (hb : ¬ InBounds s.cfg addr) : SameRegs s t := by
  cases h.symm.trans (exec_of_not_inBounds ha hb)
  exact fun _ => rfl

theorem exec_sameData_of_registerWritten {i : Instr} {s t : State} (h : exec i s = .next t)
    {r : RegIdx} (hr : registerWritten i = some r) : SameData s t := by
  cases exec_effect h with
  | faulted | wrote => exact fun _ => rfl
  | stored hnone => cases hr.symm.trans hnone

theorem exec_keeps_other_words {i : Instr} {s t : State} (h : exec i s = .next t) {addr : Int}
    (ha : accessAddress i s = some addr) {a : Nat} (hne : (a : Int) ≠ addr) :
    t.mem.read a = s.mem.read a := by
  cases exec_effect h with
  | faulted | wrote => rfl
  | stored _ ha' hb =>
    cases ha.symm.trans ha'
    have hnonneg : 0 ≤ addr := hb.left
    exact read_write_other s.mem _ (by omega)

theorem exec_mem_wf {i : Instr} {s t : State} (h : exec i s = .next t) (hwf : s.mem.wf = true) :
    t.mem.wf = true := by
  cases exec_effect h with
  | faulted | wrote => exact hwf
  | stored => exact wf_write hwf _ _

theorem exec_mem_inside {i : Instr} {s t : State} (h : exec i s = .next t)
    (hin : s.mem.inside s.cfg.memSize = true) : t.mem.inside t.cfg.memSize = true := by
  cases exec_effect h with
  | faulted | wrote => exact hin
  | stored _ _ hb =>
    obtain ⟨hnonneg, hlt⟩ := hb
    exact inside_write hin (by omega) _

/-! ## The frames -/

/-- Settles O28: what every instruction keeps, and a LOAD_CONST makes no access that could fault. -/
theorem registerWriteFrame : Obligations.RegisterWriteFrame := by
  intro i dst s t hi h
  have hdst : registerWritten i = some dst := by
    obtain ⟨c, rfl⟩ | ⟨off, base, rfl⟩ := hi <;> rfl
  refine ⟨fun r hr => exec_keeps_other_registers h (by simpa [hdst] using hr.symm),
    exec_sameData_of_registerWritten h hdst, exec_sameProgram h, exec_counted h, ?_⟩
  obtain hdone | ⟨hrun, hfails, hregs, -⟩ := exec_completes_or_faults h
  · exact .inl hdone
  · refine .inr ⟨hrun, hregs, ?_⟩
    obtain ⟨c, rfl⟩ | hread := hi
    · exact absurd (fun addr ha => by cases ha) hfails
    · exact hread

/-- Settles O29: neither instruction writes a register, and both store at their effective address. -/
theorem storeFrame : Obligations.StoreFrame := by
  intro i s t addr hi ha h
  have hnone : registerWritten i = none := by
    obtain ⟨r, q, rfl⟩ | ⟨r, c, d, q, rfl⟩ := hi <;> rfl
  refine ⟨fun r => exec_keeps_other_registers h (by simp [hnone]),
    fun a hne => exec_keeps_other_words h ha hne, exec_sameProgram h, exec_counted h, ?_⟩
  obtain hdone | ⟨hrun, -, -, hdata⟩ := exec_completes_or_faults h
  · exact .inl hdone
  · exact .inr ⟨hrun, hdata⟩

/-- Settles O30: with the same address and the same word moved, both states end in the same one of the
three ways. -/
theorem registerFileControl : Obligations.RegisterFileControl := by
  intro i s t h
  refine ⟨fun r hr => exec_keeps_other_registers h hr,
    fun addr ha hb => exec_sameRegs_of_not_inBounds h ha hb, ?_⟩
  rintro s' t' ⟨regs, rfl⟩ hread h'
  have haddr := accessAddress_congr hread
  have hword := wordMoved_congr (s := s) (s' := { s with regs := regs }) rfl hread
  cases exec_effect h with
  | faulted ha hb =>
    cases h'.symm.trans (exec_of_not_inBounds (haddr.trans ha) hb)
    refine ⟨rfl, rfl, rfl, rfl, ⟨rfl, rfl, rfl, rfl⟩, fun r _ hsame hnot => ?_⟩
    exact absurd hsame.symm hnot
  | wrote hr hb =>
    cases h'.symm.trans (exec_of_registerWritten hr fun addr ha => hb addr (haddr ▸ ha))
    refine ⟨rfl, rfl, rfl, rfl, ⟨rfl, rfl, rfl, rfl⟩, fun q hq _ _ => ?_⟩
    cases hr.symm.trans hq
    simpa using hword
  | stored hr ha hb =>
    cases h'.symm.trans (exec_of_store hr (haddr.trans ha) hb)
    refine ⟨congrArg (s.mem.write _) hword, rfl, rfl, rfl, ⟨rfl, rfl, rfl, rfl⟩, fun q hq _ _ => ?_⟩
    cases hr.symm.trans hq

end Sys2Proof.Machine
end

section
/-! What every step does to `pc`, to the run state and to the program, from `step_cases`
(10_state.md R26, R28, R37). -/

namespace Sys2Proof.Machine

/-- What decodes is one of the four instructions, and its bytes are all in the program. -/
theorem decodeAt_ok_bounds {prog : List Byte} {a n : Nat} {i : Instr}
    (h : decodeAt prog a = .ok (i, n)) : n = i.length ∧ 2 ≤ n ∧ a + n ≤ prog.length := by
  obtain ⟨hn, hfits, hmin, -⟩ := decode_ok_length h
  rw [List.length_drop] at hfits
  exact ⟨hn, hmin, by omega⟩

theorem layout_bytes_mem (v : Variant) : v.layout.bytes ∈ [2, 3, 4, 7] := by
  cases v <;> decide

theorem length_mem (i : Instr) : i.length ∈ [2, 3, 4, 7] := layout_bytes_mem i.variant

theorem not_atEnd_of_decodes {s : State} {i : Instr} {n : Nat}
    (h : decodeAt s.prog s.pc = .ok (i, n)) : ¬ AtEnd s := by
  obtain ⟨-, hmin, hfits⟩ := decodeAt_ok_bounds h
  simp only [AtEnd, State.progLen]
  omega

/-- A step that decodes is the execution of what it decoded. -/
theorem step_of_decodes {s : State} {i : Instr} {n : Nat} (hrun : s.run = .running)
    (hlim : ¬ AtLimit s) (h : decodeAt s.prog s.pc = .ok (i, n)) : step s = exec i s := by
  rw [step_of_running hrun, cycle, if_neg (not_atEnd_of_decodes h), if_neg hlim, fetchDecode, h]

theorem exec_pc_of_decodes {s t : State} {i : Instr} {n : Nat}
    (h : decodeAt s.prog s.pc = .ok (i, n)) (he : exec i s = .next t) : t.pc = s.pc + n := by
  obtain ⟨rfl, -⟩ := decodeAt_ok_bounds h
  exact (exec_counted he).left

/-- A step that executes nothing leaves `pc` and the program and ends in a terminal run state. -/
theorem step_stops_or_executes {s t : State} (h : step s = .next t) :
    (t.pc = s.pc ∧ SameProgram s t ∧ t.run.terminal = true) ∨
      ∃ i n, decodeAt s.prog s.pc = .ok (i, n) ∧ exec i s = .next t := by
  obtain ⟨-, ⟨-, rfl⟩ | ⟨-, -, rfl⟩ | ⟨-, -, op, -, rfl⟩ | ⟨-, -, op, -, rfl⟩ |
    ⟨-, -, i, n, hdec, he⟩⟩ := step_cases h
  · exact .inl ⟨rfl, ⟨rfl, rfl⟩, rfl⟩
  · exact .inl ⟨rfl, ⟨rfl, rfl⟩, rfl⟩
  · exact .inl ⟨rfl, ⟨rfl, rfl⟩, rfl⟩
  · exact .inl ⟨rfl, ⟨rfl, rfl⟩, rfl⟩
  · exact .inr ⟨i, n, hdec, he⟩

theorem not_ready_nor_running_of_terminal {r : RunState} (h : r.terminal = true) :
    r ≠ .ready ∧ r ≠ .running := by
  constructor <;> (rintro rfl; cases h)

/-- A step moves `pc` past the instruction it decodes, or it leaves `pc` and the machine stops. -/
theorem step_advances_or_stops {s t : State} (h : step s = .next t) :
    (∃ i n, decodeAt s.prog s.pc = .ok (i, n) ∧ t.pc = s.pc + n) ∨
      (t.pc = s.pc ∧ t.run ≠ .running) := by
  obtain ⟨hpc, -, hstop⟩ | ⟨i, n, hdec, he⟩ := step_stops_or_executes h
  · exact .inr ⟨hpc, (not_ready_nor_running_of_terminal hstop).right⟩
  · exact .inl ⟨i, n, hdec, exec_pc_of_decodes hdec he⟩

theorem step_sameProgram {s t : State} (h : step s = .next t) : SameProgram s t := by
  obtain ⟨-, hsame, -⟩ | ⟨i, n, -, he⟩ := step_stops_or_executes h
  · exact hsame
  · exact exec_sameProgram he

theorem step_run_ne_ready {s t : State} (h : step s = .next t) : t.run ≠ .ready := by
  have hrun : s.run = .running := (step_cases h).left
  obtain ⟨-, -, hstop⟩ | ⟨i, n, -, he⟩ := step_stops_or_executes h
  · exact (not_ready_nor_running_of_terminal hstop).left
  · obtain ⟨hsame, -⟩ | ⟨hfaulted, -⟩ := exec_completes_or_faults he
    · simp [hsame, hrun]
    · simp [hfaulted]

theorem step_pc_of_running {s t : State} (h : step s = .next t) (ht : t.run = .running) :
    s.pc + 2 ≤ t.pc ∧ t.pc ≤ t.progLen := by
  obtain ⟨i, n, hdec, hpc⟩ | ⟨-, hstop⟩ := step_advances_or_stops h
  · obtain ⟨-, hmin, hfits⟩ := decodeAt_ok_bounds hdec
    rw [State.progLen, (step_sameProgram h).left]
    omega
  · exact absurd ht hstop

end Sys2Proof.Machine
end

section
/-! The moves of the host: what reset, load and start answer (10_state.md R41 to R43;
70_reset_and_hazards.md R240 to R251). -/

namespace Sys2Proof.Machine

@[simp] theorem hostMove_reset (s : State) :
    hostMove .reset s = .next (State.afterReset s.cfg s.prog) := rfl

theorem hostMove_start_of_ready {s : State} (h : s.run = .ready) :
    hostMove .start s = .next { s with run := .running } := by
  rw [hostMove, hostStart, if_pos h]

theorem hostMove_start_of_not_ready {s : State} (h : s.run ≠ .ready) :
    hostMove .start s = .next s := by
  rw [hostMove, hostStart, if_neg h]

theorem hostMove_load_eq_next {bytes : List Byte} {s t : State} :
    hostMove (.load bytes) s = .next t ↔
      s.run = .ready ∧ bytes.length ≤ s.cfg.progMax ∧ t = { s with prog := bytes } := by
  rw [hostMove, hostLoad]
  by_cases hrun : s.run = .ready
  · by_cases hfits : bytes.length ≤ s.cfg.progMax
    · simp [hrun, hfits, eq_comm]
    · simp [hrun, hfits]
  · simp [hrun]

theorem build_eq_next {cfg : Config} {prog : List Byte} {s : State} :
    State.build cfg prog = .next s ↔
      cfg.valid = true ∧ prog.length ≤ cfg.progMax ∧ s = State.afterReset cfg prog := by
  rw [State.build]
  by_cases hvalid : cfg.valid = true
  · by_cases hfits : prog.length ≤ cfg.progMax
    · simp [hvalid, hfits, eq_comm]
    · simp [hvalid, hfits]
  · simp [hvalid]

/-- Settles O20: a step by its cases, a move of the host by what it answers. -/
theorem runStateTransitions : Obligations.RunStateTransitions := by
  refine ⟨fun s t h => ⟨(step_cases h).left, step_run_ne_ready h, step_pc_of_running h⟩, ?reset,
    ?start, ?load⟩
  case reset =>
    intro s t h
    cases h
    rfl
  case start =>
    intro s t h
    by_cases hready : s.run = .ready
    · cases (hostMove_start_of_ready hready).symm.trans h
      rw [if_pos hready]
    · cases (hostMove_start_of_not_ready hready).symm.trans h
      rw [if_neg hready]
  case load =>
    intro s t bytes h
    obtain ⟨hready, -, rfl⟩ := hostMove_load_eq_next.mp h
    exact ⟨hready, hready⟩

theorem hostMove_keeps_cfg {s t : State} {m : HostMove} (h : hostMove m s = .next t) :
    t.cfg = s.cfg := by
  cases m with
  | reset => cases h; rfl
  | load bytes =>
    obtain ⟨-, -, rfl⟩ := hostMove_load_eq_next.mp h
    rfl
  | start =>
    by_cases hready : s.run = .ready
    · cases (hostMove_start_of_ready hready).symm.trans h
      rfl
    · cases (hostMove_start_of_not_ready hready).symm.trans h
      rfl

theorem hostMove_keeps_prog_of_not_ready {s t : State} {m : HostMove} (h : hostMove m s = .next t)
    (hrun : s.run ≠ .ready) : t.prog = s.prog := by
  cases m with
  | reset => cases h; rfl
  | load bytes => exact absurd (hostMove_load_eq_next.mp h).left hrun
  | start =>
    cases (hostMove_start_of_not_ready hrun).symm.trans h
    rfl

/-- Settles O43: no step writes the program, and of the host's moves a load alone does, in Ready. -/
theorem programNeverChangesInARun : Obligations.ProgramNeverChangesInARun :=
  ⟨fun _ _ h => step_sameProgram h,
    fun _ _ _ h => ⟨hostMove_keeps_cfg h, hostMove_keeps_prog_of_not_ready h⟩⟩

/-- Settles O38: reset answers `State.afterReset`, whose fields are those of the table. -/
theorem resetLeavesTableValues : Obligations.ResetLeavesTableValues := by
  refine ⟨fun s => ⟨_, hostMove_reset s, ?table⟩, rfl, rfl⟩
  exact ⟨readReg_afterReset s.cfg s.prog, read_nil, rfl, rfl, rfl, rfl, rfl, rfl, rfl, rfl, rfl⟩

/-! ## What the host reads -/

theorem hostReadStatus_of_running {s : State} (h : s.run = .running) :
    hostReadStatus s = .refused .readWhileRunning := by
  rw [hostReadStatus, if_pos h]

theorem hostReadStatus_of_not_running {s : State} (h : s.run ≠ .running) :
    hostReadStatus s = .next (statusOf s) := by
  rw [hostReadStatus, if_neg h]

/-- A dump is answered exactly outside Running and inside data memory. -/
theorem hostDump_eq_next {lo hi : Nat} {s : State} {words : List Word} :
    hostDump lo hi s = .next words ↔ s.run ≠ .running ∧ hi < s.cfg.memSize ∧
      words = (List.range' lo (hi + 1 - lo)).map (fun a => s.mem.read a) := by
  rw [hostDump]
  by_cases hrun : s.run = .running
  · simp [hrun]
  · by_cases hhi : hi < s.cfg.memSize
    · simp [hrun, hhi, eq_comm]
    · simp [hrun, hhi]

/-- Settles O40: both reads are answered outside Running alone, the dump inside data memory alone. -/
theorem hostReads : Obligations.HostReads := by
  refine ⟨fun s h => hostReadStatus_of_not_running h, ?dump, ?refused, ?pastEnd⟩
  case dump =>
    intro s lo hi hrun hle hhi
    refine ⟨_, hostDump_eq_next.mpr ⟨hrun, hhi, rfl⟩, ?_, fun k hk => ?_⟩
    · rw [List.length_map, List.length_range']
      omega
    · have hlt : k < hi + 1 - lo := by omega
      simp [hlt]
  case refused =>
    intro s lo hi words hrun
    refine ⟨fun h => (hostDump_eq_next.mp h).left hrun, fun st h => ?_⟩
    cases (hostReadStatus_of_running hrun).symm.trans h
  case pastEnd =>
    intro s lo hi words hhi h
    obtain ⟨-, hlt, -⟩ := hostDump_eq_next.mp h
    omega

/-! ## The codes of the status outputs -/

theorem runCode_injective : Function.Injective runCode := by
  intro r r'
  cases r <;> cases r' <;> decide

theorem causeCode_injective : Function.Injective causeCode := by
  intro c c'
  cases c <;> cases c' <;> decide

/-- Settles O50: the lists hold each code beside its name, and the codes are distinct. -/
theorem statusOutputsCarryTheState : Obligations.StatusOutputsCarryTheState := by
  refine ⟨fun s => ⟨rfl, fun _ => rfl⟩, fun s r code hmem => ?run, fun s c code hmem => ?cause⟩
  case run =>
    have hcode : code = runCode r := by
      simp only [List.mem_cons, Prod.mk.injEq, List.not_mem_nil, or_false] at hmem
      obtain ⟨rfl, rfl⟩ | ⟨rfl, rfl⟩ | ⟨rfl, rfl⟩ | ⟨rfl, rfl⟩ | ⟨rfl, rfl⟩ := hmem <;> rfl
    rw [hcode]
    exact runCode_injective.eq_iff
  case cause =>
    have hcode : code = causeCode c := by
      simp only [List.mem_cons, Prod.mk.injEq, List.not_mem_nil, or_false] at hmem
      obtain ⟨rfl, rfl⟩ | ⟨rfl, rfl⟩ | ⟨rfl, rfl⟩ | ⟨rfl, rfl⟩ := hmem <;> rfl
    rw [hcode]
    exact causeCode_injective.eq_iff

end Sys2Proof.Machine
end

section
/-! The invariant of Safety.lean: it holds after reset, every step and every move of the host keep it,
and what it says of the sizes of `pc`, `steps` and the fault record (10_state.md R25, R30 to R34). -/

namespace Sys2Proof.Machine

/-! ## Instruction boundaries -/

theorem boundary_succ {prog : List Byte} {k a n : Nat} {i : Instr} (h : boundary prog k = some a)
    (hdec : decodeAt prog a = .ok (i, n)) : boundary prog (k + 1) = some (a + n) := by
  simp only [boundary, h, hdec]

theorem boundary_succ_eq_some {prog : List Byte} {k b : Nat} (h : boundary prog (k + 1) = some b) :
    ∃ a i n, boundary prog k = some a ∧ decodeAt prog a = .ok (i, n) ∧ b = a + n := by
  rw [boundary] at h
  split at h
  · cases h
  · rename_i a ha
    split at h
    · rename_i i n hdec
      cases h
      exact ⟨a, i, n, ha, hdec, rfl⟩
    · cases h

/-- A boundary is in the program or at its end, and every instruction before it took two bytes at
least. -/
theorem boundary_bounds {prog : List Byte} {k a : Nat} (h : boundary prog k = some a) :
    2 * k ≤ a ∧ a ≤ prog.length := by
  induction k generalizing a with
  | zero =>
    cases h
    omega
  | succ k ih =>
    obtain ⟨b, i, n, hb, hdec, rfl⟩ := boundary_succ_eq_some h
    obtain ⟨hcount, -⟩ := ih hb
    obtain ⟨-, hmin, hfits⟩ := decodeAt_ok_bounds hdec
    omega

/-! ## The fault record -/

theorem recordExplains_of_no_cause {s : State} (h : s.fcause = .none) :
    RecordExplains s ↔ s.fpc = 0 ∧ s.fopcode = 0 ∧ s.faddr = 0 := by
  simp only [RecordExplains, h]

theorem recordExplains_unknownOpcode {s : State} {op : Byte}
    (hdec : decodeAt s.prog s.pc = .error (.unknownOpcode op)) (haddr : s.faddr = 0) :
    RecordExplains (raiseFault .unknownOpcode s.pc op s) := ⟨hdec, rfl, haddr⟩

theorem recordExplains_truncatedInstruction {s : State} {op : Byte}
    (hdec : decodeAt s.prog s.pc = .error (.truncatedInstruction op)) (haddr : s.faddr = 0) :
    RecordExplains (raiseFault .truncatedInstruction s.pc op s) := ⟨hdec, rfl, haddr⟩

theorem recordExplains_memoryBounds {s : State} {i : Instr} {n : Nat} {addr : Int}
    (hdec : decodeAt s.prog s.pc = .ok (i, n)) (ha : accessAddress i s = some addr)
    (hb : ¬ InBounds s.cfg addr) :
    RecordExplains (raiseFault (.memoryBounds addr) s.pc i.opcode (advance n s)) :=
  ⟨i, n, hdec, rfl, rfl, (accessAddress_congr fun _ _ => rfl).trans ha, hb⟩

theorem raisedCause_ne_none (f : Raised) : raisedCause f ≠ .none := by
  cases f <;> exact nofun

/-! ## What the invariant gives -/

theorem Inv.pc_le_progLen {s : State} (h : Inv s) : s.pc ≤ s.progLen :=
  (boundary_bounds h.pcBoundary).right

theorem Inv.two_mul_steps_le_pc {s : State} (h : Inv s) : 2 * s.steps ≤ s.pc :=
  (boundary_bounds h.pcBoundary).left

theorem Inv.progMax_le {s : State} (h : Inv s) : s.cfg.progMax ≤ 2 ^ 32 := by
  have hvalid := h.params
  simp only [Config.valid, Bool.and_eq_true, decide_eq_true_eq] at hvalid
  exact hvalid.left.right

theorem Inv.steps_le {s : State} (h : Inv s) : s.steps ≤ 2 ^ 31 := by
  have hcount := h.two_mul_steps_le_pc
  have hpc := h.pc_le_progLen
  have hfits := h.programFits
  have hmax := h.progMax_le
  omega

theorem progMax_lt_two_pow_pcWidth (cfg : Config) : cfg.progMax < 2 ^ cfg.pcWidth :=
  Nat.le_pow_clog Nat.one_lt_two (cfg.progMax + 1)

theorem Inv.pc_lt_two_pow_pcWidth {s : State} (h : Inv s) : s.pc < 2 ^ s.cfg.pcWidth :=
  (h.pc_le_progLen.trans h.programFits).trans_lt (progMax_lt_two_pow_pcWidth s.cfg)

theorem Inv.no_cause {s : State} (h : Inv s) (hrun : s.run ≠ .faulted) : s.fcause = .none :=
  not_not.mp (mt h.causeIffFaulted.mp hrun)

theorem Inv.faddr_eq_zero {s : State} (h : Inv s) (hrun : s.run ≠ .faulted) : s.faddr = 0 := by
  obtain ⟨-, -, haddr⟩ := (recordExplains_of_no_cause (h.no_cause hrun)).mp h.record
  exact haddr

/-- Each cause leaves `fpc` at 0, at `pc`, or before the instruction `pc` has passed. -/
theorem Inv.fpc_le_pc {s : State} (h : Inv s) : s.fpc ≤ s.pc := by
  have hrec := h.record
  unfold RecordExplains at hrec
  split at hrec
  · obtain ⟨hfpc, -⟩ := hrec
    omega
  · obtain ⟨-, hpc, -⟩ := hrec
    omega
  · obtain ⟨-, hpc, -⟩ := hrec
    omega
  · obtain ⟨i, n, -, hpc, -⟩ := hrec
    omega

/-- The effective address of what decodes lies in 33 bits two's complement (20_memory.md R64). -/
theorem accessAddress_range {i : Instr} {s : State} {addr : Int} (hwf : i.WellFormed)
    (ha : accessAddress i s = some addr) : -2 ^ 32 ≤ addr ∧ addr < 2 ^ 32 := by
  obtain ⟨base, off, hoff, rfl⟩ :
      ∃ base off, InSigned13 off ∧ addr = effectiveAddress s base off := by
    cases i with
    | loadConst r c => cases ha
    | readMem off r base => cases ha; exact ⟨base, off, of_decide_eq_true hwf, rfl⟩
    | writeMem r base => cases ha; exact ⟨base, 0, by decide, rfl⟩
    | shiftRight r amt off base =>
      cases ha
      exact ⟨base, off, of_decide_eq_true (Bool.and_eq_true_iff.mp hwf).right, rfl⟩
  have hrange := effectiveAddress_range s base hoff
  omega

theorem Inv.faddr_range {s : State} (h : Inv s) : -2 ^ 32 ≤ s.faddr ∧ s.faddr < 2 ^ 32 := by
  have hrec := h.record
  unfold RecordExplains at hrec
  split at hrec
  · obtain ⟨-, -, haddr⟩ := hrec
    omega
  · obtain ⟨-, -, haddr⟩ := hrec
    omega
  · obtain ⟨-, -, haddr⟩ := hrec
    omega
  · obtain ⟨i, n, hdec, -, -, ha, -⟩ := hrec
    exact accessAddress_range (decode_ok_wellFormed hdec) ha

/-- Settles O41: each output is a number below what its width holds. -/
theorem statusWidthsSuffice : Obligations.StatusWidthsSuffice := by
  intro s h
  have hsteps := h.steps_le
  obtain ⟨hlow, hhigh⟩ := h.faddr_range
  refine ⟨Nat.mod_eq_of_lt h.pc_lt_two_pow_pcWidth, Nat.mod_eq_of_lt (by omega),
    Nat.mod_eq_of_lt (h.fpc_le_pc.trans_lt h.pc_lt_two_pow_pcWidth), ?_⟩
  exact BitVec.toInt_ofInt_eq_self (by decide) hlow hhigh

/-! ## Reset -/

theorem inv_afterReset {cfg : Config} {prog : List Byte} (hvalid : cfg.valid = true)
    (hfits : prog.length ≤ cfg.progMax) : Inv (State.afterReset cfg prog) where
  params := hvalid
  programFits := hfits
  pcBoundary := rfl
  withinLimit := fun limit _ => Nat.zero_le limit
  memCanonical := rfl
  memInside := rfl
  causeIffFaulted := iff_of_false (fun h => h rfl) nofun
  record := ⟨rfl, rfl, rfl⟩
  haltedAtEnd := nofun
  limitedAtLimit := nofun
  readyIsReset := fun _ => rfl

/-- Settles O44: the state of the model after reset is one such block. -/
theorem invAtReset : Obligations.InvAtReset :=
  ⟨inv_afterReset (by decide) (Nat.zero_le _),
    fun _ _ hvalid hfits =>
      ⟨_, build_eq_next.mpr ⟨hvalid, hfits, rfl⟩, inv_afterReset hvalid hfits⟩⟩

/-! ## Steps -/

/-- The run state can become another one whose condition holds, where there is no fault. -/
theorem Inv.keep_set_run {s : State} (h : Inv s) (hrun : s.run ≠ .faulted) {r : RunState}
    (hfaulted : r ≠ .faulted) (hready : r ≠ .ready) (hhalted : r = .halted → AtEnd s)
    (hlimited : r = .stepLimited → AtLimit s ∧ ¬ AtEnd s) : Inv { s with run := r } where
  params := h.params
  programFits := h.programFits
  pcBoundary := h.pcBoundary
  withinLimit := h.withinLimit
  memCanonical := h.memCanonical
  memInside := h.memInside
  causeIffFaulted := iff_of_false (fun hcause => hcause (h.no_cause hrun)) hfaulted
  record := h.record
  haltedAtEnd := hhalted
  limitedAtLimit := hlimited
  readyIsReset := fun e => absurd e hready

/-- A fault whose record explains it keeps the invariant. -/
theorem Inv.keep_raiseFault {s : State} (h : Inv s) {f : Raised} {ipc : Nat} {op : Byte}
    (hrec : RecordExplains (raiseFault f ipc op s)) : Inv (raiseFault f ipc op s) where
  params := h.params
  programFits := h.programFits
  pcBoundary := h.pcBoundary
  withinLimit := h.withinLimit
  memCanonical := h.memCanonical
  memInside := h.memInside
  causeIffFaulted := iff_of_true (raisedCause_ne_none f) rfl
  record := hrec
  haltedAtEnd := nofun
  limitedAtLimit := nofun
  readyIsReset := nofun

/-- A machine that goes on running with the same program, parameters and (empty) fault record keeps
the invariant as far as its `pc`, its count and its data memory do. -/
theorem Inv.keep_running {s t : State} (h : Inv s) (hs : s.run = .running) (ht : t.run = .running)
    (hsame : SameProgram s t) (hrec : SameRecord s t) (hpc : boundary t.prog t.steps = some t.pc)
    (hlim : ∀ limit, t.cfg.stepLimit = some limit → t.steps ≤ limit) (hwf : t.mem.wf = true)
    (hin : t.mem.inside t.cfg.memSize = true) : Inv t := by
  obtain ⟨hprog, hcfg⟩ := hsame
  obtain ⟨hcause, hfpc, hop, haddr⟩ := hrec
  have hnone : s.fcause = .none := h.no_cause (by simp [hs])
  have hnone' : t.fcause = .none := hcause.trans hnone
  have hzero := (recordExplains_of_no_cause hnone).mp h.record
  exact {
    params := hcfg ▸ h.params
    programFits := by simpa only [State.progLen, hprog, hcfg] using h.programFits
    pcBoundary := hpc
    withinLimit := hlim
    memCanonical := hwf
    memInside := hin
    causeIffFaulted := by simp [hnone', ht]
    record := (recordExplains_of_no_cause hnone').mpr (by rwa [hfpc, hop, haddr])
    haltedAtEnd := by simp [ht]
    limitedAtLimit := by simp [ht]
    readyIsReset := by simp [ht] }

/-- Below the ceiling the count can go up by one. -/
theorem Inv.steps_lt_limit {s : State} (h : Inv s) (hlim : ¬ AtLimit s) {limit : Nat}
    (hl : s.cfg.stepLimit = some limit) : s.steps < limit :=
  lt_of_le_of_ne (h.withinLimit limit hl) fun e => hlim (hl.trans (congrArg some e.symm))

theorem Inv.keep_advance {s : State} (h : Inv s) (hrun : s.run = .running) (hlim : ¬ AtLimit s)
    {i : Instr} {n : Nat} (hdec : decodeAt s.prog s.pc = .ok (i, n)) : Inv (advance n s) :=
  h.keep_running hrun hrun ⟨rfl, rfl⟩ ⟨rfl, rfl, rfl, rfl⟩ (boundary_succ h.pcBoundary hdec)
    (fun _ hl => h.steps_lt_limit hlim hl) h.memCanonical h.memInside

/-- Executing what was decoded keeps the invariant: the advance does, and so does each of the three
ways the instruction ends. -/
theorem Inv.keep_exec {s t : State} (h : Inv s) (hrun : s.run = .running) (hlim : ¬ AtLimit s)
    {i : Instr} {n : Nat} (hdec : decodeAt s.prog s.pc = .ok (i, n)) (he : exec i s = .next t) :
    Inv t := by
  obtain ⟨rfl, -⟩ := decodeAt_ok_bounds hdec
  have hadv := h.keep_advance hrun hlim hdec
  have hwf := exec_mem_wf he h.memCanonical
  have hin := exec_mem_inside he h.memInside
  cases exec_effect he with
  | faulted ha hb => exact hadv.keep_raiseFault (recordExplains_memoryBounds hdec ha hb)
  | wrote | stored =>
    exact hadv.keep_running hrun hrun ⟨rfl, rfl⟩ ⟨rfl, rfl, rfl, rfl⟩ hadv.pcBoundary
      hadv.withinLimit hwf hin

/-- Settles O45: one lemma for each of the five things a step can do. -/
theorem stepKeepsInv : Obligations.StepKeepsInv := by
  intro s t h hstep
  obtain ⟨hrun, hcases⟩ := step_cases hstep
  have hnot : s.run ≠ .faulted := by simp [hrun]
  obtain ⟨hend, rfl⟩ | ⟨hend, hlim, rfl⟩ | ⟨-, -, op, hdec, rfl⟩ | ⟨-, -, op, hdec, rfl⟩ |
    ⟨-, hlim, i, n, hdec, he⟩ := hcases
  case inl => exact h.keep_set_run hnot nofun nofun (fun _ => hend) nofun
  case inr.inl => exact h.keep_set_run hnot nofun nofun nofun (fun _ => ⟨hlim, hend⟩)
  case inr.inr.inl =>
    exact h.keep_raiseFault (recordExplains_unknownOpcode hdec (h.faddr_eq_zero hnot))
  case inr.inr.inr.inl =>
    exact h.keep_raiseFault (recordExplains_truncatedInstruction hdec (h.faddr_eq_zero hnot))
  case inr.inr.inr.inr => exact h.keep_exec hrun hlim hdec he

/-- Settles O19: a step that decodes executes, every step advances or stops, and the invariant bounds
the `pc` of the next state. -/
theorem pcMovesOnlyByTheAdvance : Obligations.PcMovesOnlyByTheAdvance := by
  refine ⟨?decodes, fun s t h => step_advances_or_stops h, ?noWrap⟩
  case decodes =>
    intro s i n hrun hlim hdec
    obtain ⟨rfl, -⟩ := decodeAt_ok_bounds hdec
    obtain ⟨t, he, -⟩ := exec_ends i s
    exact ⟨length_mem i, t, (step_of_decodes hrun hlim hdec).trans he, exec_pc_of_decodes hdec he⟩
  case noWrap =>
    intro s t h hstep
    have ht := stepKeepsInv s t h hstep
    exact ⟨ht.pc_le_progLen, ht.programFits, progMax_lt_two_pow_pcWidth t.cfg⟩

/-! ## The host's moves, and every reachable state -/

/-- The invariant through each of the host's moves: reset and load lead to a state after reset, and
start sets the run state alone. -/
theorem Inv.keep_hostMove {s t : State} {m : HostMove} (h : Inv s)
    (hmove : hostMove m s = .next t) : Inv t := by
  cases m with
  | reset =>
    cases hmove
    exact inv_afterReset h.params h.programFits
  | load bytes =>
    obtain ⟨hready, hfits, rfl⟩ := hostMove_load_eq_next.mp hmove
    rw [h.readyIsReset hready]
    exact inv_afterReset h.params hfits
  | start =>
    by_cases hready : s.run = .ready
    · cases (hostMove_start_of_ready hready).symm.trans hmove
      exact h.keep_set_run (by simp [hready]) nofun nofun nofun nofun
    · cases (hostMove_start_of_not_ready hready).symm.trans hmove
      exact h

theorem Reachable.inv {s : State} (h : Reachable s) : Inv s := by
  induction h with
  | built cfg prog s h =>
    obtain ⟨hvalid, hfits, rfl⟩ := build_eq_next.mp h
    exact inv_afterReset hvalid hfits
  | stepped s t _ hstep ih => exact stepKeepsInv s t ih hstep
  | moved s t m _ hmove ih => exact ih.keep_hostMove hmove

/-- Settles O47: the invariant holds of every reachable state and bounds `pc` and `steps`. -/
theorem reachableStatesAreSound : Obligations.ReachableStatesAreSound :=
  fun _ hs => ⟨hs.inv, hs.inv.pc_le_progLen, hs.inv.two_mul_steps_le_pc, hs.inv.steps_le⟩

end Sys2Proof.Machine
end

section
/-! Data memory and its port: the canonical form is canonical, and what MemRead and MemWrite answer
(20_memory.md R52, R65, R74, R75). -/

namespace Sys2Proof.Machine

/-! ## The canonical form -/

theorem read_head (a : Nat) (w : Word) (m : Memory) : Memory.read ((a, w) :: m) a = w :=
  if_pos rfl

/-- A canonical memory is canonical from its own first address on. -/
theorem wfFrom_head {lo a : Nat} {v : Word} {m : Memory}
    (h : Memory.wfFrom lo ((a, v) :: m) = true) : Memory.wfFrom a ((a, v) :: m) = true := by
  obtain ⟨-, hv, hm⟩ := (wfFrom_cons lo a v m).mp h
  exact (wfFrom_cons a a v m).mpr ⟨le_rfl, hv, hm⟩

/-- A memory that reads like a canonical one lists no word below it: that word would have to be 0. -/
theorem head_ge_of_read_eq {lo a b : Nat} {v : Word} {m m' : Memory}
    (hm : Memory.wfFrom lo ((a, v) :: m) = true) (hm' : Memory.wfFrom b m' = true)
    (h : ∀ c, Memory.read ((a, v) :: m) c = Memory.read m' c) : b ≤ a := by
  by_contra hlt
  obtain ⟨-, hv, -⟩ := (wfFrom_cons lo a v m).mp hm
  have hzero : Memory.read m' a = 0 := read_of_lt hm' (by omega)
  exact hv ((read_head a v m).symm.trans ((h a).trans hzero))

/-- Tails of canonical memories with one head read alike where the whole memories do. -/
theorem read_tail_eq {a : Nat} {v : Word} {m m' : Memory} (hm : Memory.wfFrom (a + 1) m = true)
    (hm' : Memory.wfFrom (a + 1) m' = true)
    (h : ∀ c, Memory.read ((a, v) :: m) c = Memory.read ((a, v) :: m') c) (c : Nat) :
    Memory.read m c = Memory.read m' c := by
  by_cases hc : c = a
  · rw [read_of_lt hm (by omega), read_of_lt hm' (by omega)]
  · simpa only [read_cons, if_neg hc] using h c

theorem eq_of_read_eq {lo : Nat} {m m' : Memory} (hm : Memory.wfFrom lo m = true)
    (hm' : Memory.wfFrom lo m' = true) (h : ∀ a, Memory.read m a = Memory.read m' a) : m = m' := by
  induction m generalizing lo m' with
  | nil =>
    cases m' with
    | nil => rfl
    | cons e m' =>
      -- The empty memory is canonical from any address on.
      have hle : e.1 + 1 ≤ e.1 := head_ge_of_read_eq hm' (wfFrom_nil _) fun c => (h c).symm
      omega
  | cons e m ih =>
    obtain ⟨a, v⟩ := e
    cases m' with
    | nil =>
      have hle : a + 1 ≤ a := head_ge_of_read_eq hm (wfFrom_nil _) h
      omega
    | cons e' m' =>
      obtain ⟨b, w⟩ := e'
      obtain rfl : a = b := Nat.le_antisymm
        (head_ge_of_read_eq hm' (wfFrom_head hm) fun c => (h c).symm)
        (head_ge_of_read_eq hm (wfFrom_head hm') h)
      obtain rfl : v = w := by simpa only [read_head] using h a
      obtain ⟨-, -, hm⟩ := (wfFrom_cons lo a v m).mp hm
      obtain ⟨-, -, hm'⟩ := (wfFrom_cons lo a v m').mp hm'
      rw [ih hm hm' (read_tail_eq hm hm' h)]

/-- Settles O33: by induction on both lists, which agree on their first word and so on the rest. -/
theorem canonicalMemoriesAreEqual : Obligations.CanonicalMemoriesAreEqual :=
  fun _ _ hm hm' h => eq_of_read_eq hm hm' h

/-! ## The data port after a write -/

theorem memRead_write_same {s : State} {addr : Int} (hb : InBounds s.cfg addr) (w : Word)
    (hwf : s.mem.wf = true) :
    memRead { s with mem := s.mem.write addr.toNat w } addr = some w := by
  rw [memRead_of_inBounds (by exact hb), read_write_same hwf]

theorem memRead_write_other {s : State} {addr other : Int} (hb : InBounds s.cfg addr) (w : Word)
    (hne : other ≠ addr) :
    memRead { s with mem := s.mem.write addr.toNat w } other = memRead s other := by
  by_cases ho : InBounds s.cfg other
  · have hnat : other.toNat ≠ addr.toNat := by
      obtain ⟨haddr, -⟩ := hb
      obtain ⟨hother, -⟩ := ho
      omega
    rw [memRead_of_inBounds ho, memRead_of_inBounds (by exact ho), read_write_other _ _ hnat]
  · rw [memRead_of_not_inBounds ho, memRead_of_not_inBounds (by exact ho)]

/-- Settles O32: the rules of the data port on each side of the bounds check. -/
theorem memoryPrimitives : Obligations.MemoryPrimitives := by
  intro s addr hwf
  refine ⟨fun hb => ⟨memRead_of_inBounds hb, fun w => ⟨_, memWrite_of_inBounds hb w, ?_⟩⟩,
    fun hb => ⟨memRead_of_not_inBounds hb, fun w => memWrite_of_not_inBounds hb w⟩⟩
  exact ⟨memRead_write_same hb w hwf, fun _ hne => memRead_write_other hb w hne,
    fun _ => rfl, ⟨rfl, rfl, rfl, rfl⟩, ⟨rfl, rfl⟩, rfl, rfl, rfl⟩

end Sys2Proof.Machine
end

section
/-! The bounds check as hardware may make it: an unsigned comparison of the 32-bit sum
(20_memory.md R65, its note; 42_memory_access.md R162). -/

namespace Sys2Proof.Machine

theorem uint_eq_sint_emod (w : Word) : (uint w : Int) = sint w % 2 ^ 32 := by
  have hlt : (w.toNat : Int) < 2 ^ 32 := mod_cast w.isLt
  rw [sint_eq_toInt, BitVec.toInt_eq_toNat_bmod]
  exact ((Int.bmod_emod).trans (Int.emod_eq_of_lt (by omega) hlt)).symm

/-- The 32-bit sum is the mathematical address reduced modulo `2^32`. -/
theorem toNat_add_to32 (w : Word) (off : Int) :
    ((w + to32 off).toNat : Int) = (sint w + off) % 2 ^ 32 := by
  calc ((w + to32 off).toNat : Int)
      = ((uint w : Int) + uint (to32 off)) % 2 ^ 32 := by
        rw [BitVec.toNat_add, Int.natCast_emod, Int.natCast_add]; rfl
    _ = (sint w + off) % 2 ^ 32 := by rw [uint_eq_sint_emod, uint_to32, ← Int.add_emod]

/-- Settles O35: a negative sum reduces to at least `2^31 - 4096`, beyond every address; any other sum
is its own remainder. -/
theorem boundsCheckIsUnsignedCompare : Obligations.BoundsCheckIsUnsignedCompare := by
  intro cfg w off hsize ⟨hoff1, hoff2⟩
  obtain ⟨hw1, hw2⟩ := sint_range w
  have hsum := toNat_add_to32 w off
  obtain hneg | hnonneg := lt_or_ge (sint w + off) 0
  · have hwrap : (sint w + off) % 2 ^ 32 = sint w + off + 2 ^ 32 := by omega
    have hbeyond : cfg.memSize ≤ (w + to32 off).toNat := by omega
    have hfails : ¬ InBounds cfg (sint w + off) := fun hb => absurd hb.left (by omega)
    exact ⟨iff_of_false hfails (by omega), fun hb => absurd hb hfails⟩
  · rw [Int.emod_eq_of_lt hnonneg (by omega)] at hsum
    simp only [InBounds]
    exact ⟨by omega, fun _ => by omega⟩

end Sys2Proof.Machine
end

section
/-! Which step can change data memory (10_state.md R36, R41; 20_memory.md R58, R66). -/

namespace Sys2Proof.Machine

theorem isStore_of_registerWritten_none {i : Instr} (h : registerWritten i = none) :
    (∃ r q, i = .writeMem r q) ∨ ∃ r c d q, i = .shiftRight r c d q := by
  cases i with
  | loadConst r c => cases h
  | readMem off r base => cases h
  | writeMem r q => exact .inl ⟨r, q, rfl⟩
  | shiftRight r c d q => exact .inr ⟨r, c, d, q, rfl⟩

/-- A word an instruction changes is the one at its in-bounds address, and it writes no register. -/
theorem exec_changes_only_the_accessed_word {i : Instr} {s t : State} (h : exec i s = .next t)
    {a : Nat} (hne : t.mem.read a ≠ s.mem.read a) :
    registerWritten i = none ∧ accessAddress i s = some (a : Int) ∧ a < s.cfg.memSize := by
  cases exec_effect h with
  | faulted | wrote => exact absurd rfl hne
  | @stored addr hr ha hb =>
    obtain rfl : (a : Int) = addr := by
      by_contra hother
      exact hne (exec_keeps_other_words h ha hother)
    exact ⟨hr, ha, Int.ofNat_lt.mp hb.right⟩

/-- A step keeps data memory or executes what it decoded. -/
theorem step_keeps_mem_or_executes {s t : State} (h : step s = .next t) :
    t.mem = s.mem ∨ ∃ i n, decodeAt s.prog s.pc = .ok (i, n) ∧ exec i s = .next t := by
  obtain ⟨-, ⟨-, rfl⟩ | ⟨-, -, rfl⟩ | ⟨-, -, op, -, rfl⟩ | ⟨-, -, op, -, rfl⟩ |
    ⟨-, -, i, n, hdec, he⟩⟩ := step_cases h
  · exact .inl rfl
  · exact .inl rfl
  · exact .inl rfl
  · exact .inl rfl
  · exact .inr ⟨i, n, hdec, he⟩

/-- Settles O31: a changed word means an executed store, and a store changes no other word. -/
theorem dataMemoryControl : Obligations.DataMemoryControl := by
  intro s t a h hne
  obtain hmem | ⟨i, n, hdec, he⟩ := step_keeps_mem_or_executes h
  · exact absurd (by rw [hmem]) hne
  · obtain ⟨hnone, haddr, hlt⟩ := exec_changes_only_the_accessed_word he hne
    refine ⟨i, n, hdec, haddr, hlt, isStore_of_registerWritten_none hnone, fun b hb => ?_⟩
    exact exec_keeps_other_words he haddr (mod_cast hb)

end Sys2Proof.Machine
end

section
/-! Fetch as a sum of program bytes (20_memory.md R54, R76). -/

namespace Sys2Proof.Machine

/-- Byte `k` of the accumulator has weight `2^(8k)`. -/
theorem accumulate_eq_sum (bs : List Byte) :
    accumulate bs = ∑ k ∈ Finset.range bs.length, (bs.getD k 0).toNat * 2 ^ (8 * k) := by
  induction bs with
  | nil => rfl
  | cons b bs ih =>
    rw [accumulate_cons, ih, List.length_cons, Finset.sum_range_succ', Finset.mul_sum, Nat.add_comm]
    congr 1
    · refine Finset.sum_congr rfl fun k _ => ?_
      rw [List.getD_cons_succ, show 8 * (k + 1) = 8 * k + 8 by ring, pow_add]
      ring
    · simp

theorem fetched_length {s : State} {a n : Nat} (h : a + n ≤ s.progLen) :
    ((s.prog.drop a).take n).length = n := by
  rw [State.progLen] at h
  simp only [List.length_take, List.length_drop]
  omega

theorem fetched_getD (s : State) (a : Nat) {n k : Nat} (hk : k < n) :
    ((s.prog.drop a).take n).getD k 0 = s.prog.getD (a + k) 0 := by
  simp [List.getD_eq_getElem?_getD, hk]

theorem fetch_eq_sum {s : State} {a n : Nat} (h : a + n ≤ s.progLen) :
    fetch s a n = ∑ k ∈ Finset.range n, (s.prog.getD (a + k) 0).toNat * 2 ^ (8 * k) := by
  rw [fetch, accumulate_eq_sum, fetched_length h]
  refine Finset.sum_congr rfl fun k hk => ?_
  rw [fetched_getD s a (Finset.mem_range.mp hk)]

theorem fetch_lt {s : State} {a n : Nat} (h : a + n ≤ s.progLen) : fetch s a n < 2 ^ (8 * n) := by
  have hlt := accumulate_lt ((s.prog.drop a).take n)
  rwa [fetched_length h] at hlt

/-- Settles O10: the sum and the bound hold for every length, the four of the spec among them. -/
theorem fetchIsLittleEndian : Obligations.FetchIsLittleEndian :=
  fun _ _ _ _ h => ⟨fetch_eq_sum h, fetch_lt h⟩

end Sys2Proof.Machine
end

section
/-! The fields of the four formats: a field's raw value bit by bit, and the operands of a decoded
instruction as readings of its fields (30_encoding.md R83 to R90). -/

namespace Sys2Proof

theorem testBit_extract (f : BitField) (acc k : Nat) :
    (f.extract acc).testBit k = (decide (k < f.width) && acc.testBit (f.lo + k)) := by
  rw [BitField.extract, Nat.one_shiftLeft, Nat.testBit_and, Nat.testBit_two_pow_sub_one,
    Nat.testBit_shiftRight, Bool.and_comm]

/-- The raw value of a field is the same exactly where the field's own bits are. -/
theorem extract_eq_iff {f : BitField} {acc acc' : Nat} :
    f.extract acc = f.extract acc' ↔
      ∀ k, f.lo ≤ k → k < f.lo + f.width → acc.testBit k = acc'.testBit k := by
  constructor
  · intro h k hlo hhi
    have hbit : (f.extract acc).testBit (k - f.lo) = (f.extract acc').testBit (k - f.lo) := by
      rw [h]
    simpa [testBit_extract, show k - f.lo < f.width by omega, Nat.add_sub_cancel' hlo] using hbit
  · intro h
    refine Nat.eq_of_testBit_eq fun k => ?_
    rw [testBit_extract, testBit_extract]
    by_cases hk : k < f.width
    · rw [h (f.lo + k) (by omega) (by omega)]
    · simp [hk]

/-- Settles O2: the raw value bit by bit gives the independence from every other bit. -/
theorem fieldsAreTheirBitsAlone : Obligations.FieldsAreTheirBitsAlone :=
  fun f acc => ⟨rfl, extract_lt f acc, testBit_extract f acc, fun _ h => extract_eq_iff.mpr h⟩

/-! ## The operand a field stands for -/

theorem width_of_register {v : Variant} {f : BitField} (hf : f ∈ v.layout.fields)
    (hk : f.kind = .register) : f.width = 3 := by
  revert f; cases v <;> decide

theorem width_of_signed {v : Variant} {f : BitField} (hf : f ∈ v.layout.fields)
    (hk : f.kind = .signed) : f.width = 13 := by
  revert f; cases v <;> decide

theorem register_val {f : BitField} (hf : f.width = 3) (acc : Nat) :
    (f.register acc).val = f.extract acc := by
  have hlt := extract_lt f acc
  rw [hf] at hlt
  exact Nat.mod_eq_of_lt hlt

/-- The integer a field's bits stand for, by the kind of the field (30_encoding.md R89). -/
def BitField.operand (f : BitField) (acc : Nat) : Int :=
  match f.kind with
  | .register => ((f.register acc).val : Int)
  | .signed => f.signedValue acc
  | .unsigned => f.unsignedValue acc

/-- A decoded instruction's operands are the integers its format's fields stand for. -/
theorem operands_instrOf (v : Variant) (acc : Nat) :
    (instrOf v acc).operands = v.layout.fields.map (fun f => f.operand acc) := by
  cases v <;> rfl

/-- In the four formats a field that is not signed stands for its raw value. -/
theorem operand_eq {v : Variant} {f : BitField} (hf : f ∈ v.layout.fields) (acc : Nat) :
    f.operand acc = if f.kind = .signed then f.signedValue acc else (f.extract acc : Int) := by
  cases hk : f.kind with
  | register => simp [BitField.operand, hk, register_val (width_of_register hf hk)]
  | signed => simp [BitField.operand, hk]
  | unsigned => simp [BitField.operand, hk, BitField.unsignedValue]

theorem signedValue_eq_ite {f : BitField} (hf : f.width = 13) (acc : Nat) :
    f.signedValue acc =
      if f.extract acc < 4096 then (f.extract acc : Int) else (f.extract acc : Int) - 8192 := by
  rw [BitField.signedValue, hf]; rfl

theorem signedValue_inSigned13 {f : BitField} (hf : f.width = 13) (acc : Nat) :
    InSigned13 (f.signedValue acc) := by
  rw [BitField.signedValue, hf]
  exact signExtend_range13 (hf ▸ extract_lt f acc)

theorem signed_iff_named {v : Variant} {f : BitField} (hf : f ∈ v.layout.fields) :
    f.kind = .signed ↔ (v, f) ∈ [(Variant.loadConst, fieldLoadConstC),
      (Variant.readMem, fieldReadMemB), (Variant.shiftRight, fieldShiftRightD)] := by
  revert f; cases v <;> decide

/-- Settles O3: the three fields are read off the table, and each is 13 bits wide. -/
theorem signedFieldsExtend : Obligations.SignedFieldsExtend := by
  refine ⟨fun v f => signed_iff_named, fun v f hf hk => ?_, fun v acc => ?_⟩
  · have hw : f.width = 13 := width_of_signed hf hk
    exact ⟨hw, fun acc => ⟨signedValue_eq_ite hw acc, signedValue_inSigned13 hw acc⟩⟩
  · rw [operands_instrOf]
    exact List.map_congr_left fun f hf => operand_eq hf acc

end Sys2Proof
end

section
/-! The encoder: which rows get bytes, and what the bytes are (30_encoding.md R103 to R106). -/

namespace Sys2Proof

/-! ## Rows -/

theorem encodeRow_unknown {op : Byte} (h : variantOf op = none) (operands : List Int) :
    encodeRow op operands = .error .unknownOpcode := by
  rw [encodeRow, h]

/-- Every operand of a row lies in the range of its field (30_encoding.md R104). -/
def Layout.admitsAll (f : Layout) (operands : List Int) : Bool :=
  (List.zipWith BitField.admits f.fields operands).all id

theorem encodeRow_of_admits {v : Variant} {operands : List Int}
    (hlen : operands.length = v.layout.fields.length) (h : v.layout.admitsAll operands = true) :
    encodeRow v.layout.opcode operands =
      .ok (leBytes v.layout.bytes (v.layout.assemble operands)) := by
  simp only [encodeRow, variantOf_opcode]
  rw [if_pos hlen]
  exact if_pos h

theorem encodeRow_of_not_admits {v : Variant} {operands : List Int}
    (hlen : operands.length = v.layout.fields.length) (h : ¬ v.layout.admitsAll operands = true) :
    encodeRow v.layout.opcode operands = .error .fieldOverflow := by
  simp only [encodeRow, variantOf_opcode]
  rw [if_pos hlen]
  exact if_neg h

theorem encodeRow_of_wrong_count {v : Variant} {operands : List Int}
    (hlen : operands.length ≠ v.layout.fields.length) :
    encodeRow v.layout.opcode operands = .error .operandCount := by
  simp only [encodeRow, variantOf_opcode]
  rw [if_neg hlen]

theorem encodeRow_succeeds_iff {v : Variant} {operands : List Int}
    (hlen : operands.length = v.layout.fields.length) :
    (∃ bytes, encodeRow v.layout.opcode operands = .ok bytes) ↔
      v.layout.admitsAll operands = true := by
  by_cases h : v.layout.admitsAll operands = true
  · simp [encodeRow_of_admits hlen h, h]
  · simp [encodeRow_of_not_admits hlen h, h]

theorem admitsAll_loadConst (b c : Int) :
    layoutLoadConst.admitsAll [b, c] = true ↔ (0 ≤ b ∧ b ≤ 7) ∧ InSigned13 c := by
  simp [Layout.admitsAll, layoutLoadConst, BitField.admits, fieldLoadConstB, fieldLoadConstC]

theorem admitsAll_readMem (b c d : Int) :
    layoutReadMem.admitsAll [b, c, d] = true ↔
      InSigned13 b ∧ (0 ≤ c ∧ c ≤ 7) ∧ (0 ≤ d ∧ d ≤ 7) := by
  simp [Layout.admitsAll, layoutReadMem, BitField.admits, fieldReadMemB, fieldReadMemC,
    fieldReadMemD]

theorem admitsAll_writeMem (b c : Int) :
    layoutWriteMem.admitsAll [b, c] = true ↔ (0 ≤ b ∧ b ≤ 7) ∧ (0 ≤ c ∧ c ≤ 7) := by
  simp [Layout.admitsAll, layoutWriteMem, BitField.admits, fieldWriteMemB, fieldWriteMemC]

theorem admitsAll_shiftRight (b c d e : Int) :
    layoutShiftRight.admitsAll [b, c, d, e] = true ↔
      (0 ≤ b ∧ b ≤ 7) ∧ InUnsigned23 c ∧ InSigned13 d ∧ (0 ≤ e ∧ e ≤ 7) := by
  simp [Layout.admitsAll, layoutShiftRight, BitField.admits, fieldShiftRightB, fieldShiftRightC,
    fieldShiftRightD, fieldShiftRightE]

/-- Settles O6: a row of the right length gets bytes exactly where every operand is admitted. -/
theorem encoderRangePolicy : Obligations.EncoderRangePolicy := by
  refine ⟨fun b c => ?_, fun b c d => ?_, fun b c => ?_, fun b c d e => ?_,
    fun v operands hlen => ?_, fun v operands => encodeRow_of_wrong_count⟩
  · exact (encodeRow_succeeds_iff (v := .loadConst) rfl).trans (admitsAll_loadConst b c)
  · exact (encodeRow_succeeds_iff (v := .readMem) rfl).trans (admitsAll_readMem b c d)
  · exact (encodeRow_succeeds_iff (v := .writeMem) rfl).trans (admitsAll_writeMem b c)
  · exact (encodeRow_succeeds_iff (v := .shiftRight) rfl).trans (admitsAll_shiftRight b c d e)
  · by_cases h : v.layout.admitsAll operands = true
    · exact .inl ((encodeRow_succeeds_iff hlen).mpr h)
    · exact .inr (encodeRow_of_not_admits hlen h)

/-! ## The bytes of a well-formed instruction -/

theorem operands_length (i : Instr) : i.operands.length = i.variant.layout.fields.length := by
  cases i <;> rfl

theorem regIdx_range (r : RegIdx) : 0 ≤ (r.val : Int) ∧ (r.val : Int) ≤ 7 := by
  have := r.isLt
  omega

/-- The range policy admits the operands of an instruction exactly when it is well formed. -/
theorem admitsAll_operands_iff (i : Instr) :
    i.variant.layout.admitsAll i.operands = true ↔ i.WellFormed := by
  cases i with
  | loadConst r c =>
    rw [Instr.variant, Variant.layout, Instr.operands, admitsAll_loadConst]
    simp only [regIdx_range, Instr.WellFormed, Instr.wellFormed, decide_eq_true_eq, and_self,
      true_and]
  | readMem off d b =>
    rw [Instr.variant, Variant.layout, Instr.operands, admitsAll_readMem]
    simp only [regIdx_range, Instr.WellFormed, Instr.wellFormed, decide_eq_true_eq, and_self,
      and_true]
  | writeMem a b =>
    rw [Instr.variant, Variant.layout, Instr.operands, admitsAll_writeMem]
    simp only [regIdx_range, Instr.WellFormed, Instr.wellFormed, and_self]
  | shiftRight a c d b =>
    rw [Instr.variant, Variant.layout, Instr.operands, admitsAll_shiftRight]
    simp only [regIdx_range, Instr.WellFormed, Instr.wellFormed, decide_eq_true_eq, and_self,
      true_and, and_true, Bool.and_eq_true]

theorem encode_of_wellFormed {i : Instr} (h : i.WellFormed) : encode i = .ok i.bytes :=
  encodeRow_of_admits (operands_length i) ((admitsAll_operands_iff i).mpr h)

@[simp] theorem bytes_length (i : Instr) : i.bytes.length = i.length := leBytes_length _ _

theorem getElem_leBytes {n acc k : Nat} (h : k < (leBytes n acc).length) :
    ((leBytes n acc)[k]).toNat = acc / 2 ^ (8 * k) % 256 := by
  induction n generalizing acc k with
  | zero => simp [leBytes] at h
  | succ n ih =>
    cases k with
    | zero => simp [leBytes]
    | succ k =>
      simp only [leBytes, List.getElem_cons_succ]
      rw [ih, Nat.shiftRight_eq_div_pow, Nat.div_div_eq_div_mul, ← pow_add,
        show 8 + 8 * k = 8 * (k + 1) by ring]

/-- The encoder's accumulator is the one written out from the layouts. -/
theorem assemble_eq_writtenOut (i : Instr) :
    ((i.variant.layout.assemble i.operands : Nat) : Int) = Machine.writtenOutAccumulator i := by
  have hmod : ∀ r : RegIdx, (r.val : Int) % 8 = r.val := fun r => by have := r.isLt; omega
  cases i with
  | loadConst r c =>
    rw [Instr.variant, Variant.layout, assemble_loadConst, Machine.writtenOutAccumulator, hmod]
    omega
  | readMem off d b =>
    rw [Instr.variant, Variant.layout, assemble_readMem, Machine.writtenOutAccumulator, hmod, hmod]
    omega
  | writeMem a b =>
    rw [Instr.variant, Variant.layout, assemble_writeMem, Machine.writtenOutAccumulator, hmod, hmod]
    omega
  | shiftRight a c d b =>
    rw [Instr.variant, Variant.layout, assemble_shiftRight, Machine.writtenOutAccumulator, hmod,
      hmod]
    omega

/-- Settles O5: the bytes are those of the encoder's accumulator, which is the written-out one. -/
theorem encoderPlacesFields : Obligations.EncoderPlacesFields := by
  refine ⟨fun i hwf => ⟨i.bytes, encode_of_wellFormed hwf, bytes_length i, fun k hk => ?_⟩,
    fun op operands h1 h2 h3 h4 => encodeRow_unknown (variantOf_eq_none.mpr ⟨h1, h2, h3, h4⟩) _⟩
  rw [← assemble_eq_writtenOut]
  exact_mod_cast getElem_leBytes hk

/-! ## Decoding what the encoder gives -/

/-- An unsigned 23-bit field reads as `v` where its bits are `v`. -/
theorem unsignedValue_eq {f : BitField} (hf : f.width = 23) {acc : Nat} {v : Int}
    (hv : InUnsigned23 v) (h : acc / 2 ^ f.lo % 2 ^ 23 = (v % 8388608).toNat) :
    f.unsignedValue acc = v := by
  obtain ⟨h1, h2⟩ := hv
  rw [BitField.unsignedValue, extract_eq, hf, h]
  omega

/-- The encoder's accumulator fits the instruction's bytes, and its low byte is the opcode: no
operand is placed below bit 8. -/
theorem assemble_lt_and_low_byte (i : Instr) :
    i.variant.layout.assemble i.operands < 2 ^ (8 * i.length) ∧
      i.variant.layout.assemble i.operands % 2 ^ 8 = i.opcode.toNat := by
  cases i with
  | loadConst r c =>
    rw [Instr.variant, Variant.layout, assemble_loadConst]
    exact ⟨by change _ < 2 ^ 24; omega, by change _ = 234; omega⟩
  | readMem off d b =>
    rw [Instr.variant, Variant.layout, assemble_readMem]
    exact ⟨by change _ < 2 ^ 32; omega, by change _ = 102; omega⟩
  | writeMem a b =>
    rw [Instr.variant, Variant.layout, assemble_writeMem]
    exact ⟨by change _ < 2 ^ 16; omega, by change _ = 90; omega⟩
  | shiftRight a c d b =>
    rw [Instr.variant, Variant.layout, assemble_shiftRight]
    exact ⟨by change _ < 2 ^ 56; omega, by change _ = 224; omega⟩

/-- The accumulator's fields read back as the operands that were placed in them: each operand is
below `2 ^ w`, so that nothing of a lower field reaches a higher one. -/
theorem instrOf_assemble {i : Instr} (h : i.WellFormed) :
    instrOf i.variant (i.variant.layout.assemble i.operands) = i := by
  cases i with
  | loadConst r c =>
    simp only [Instr.WellFormed, Instr.wellFormed, decide_eq_true_eq] at h
    rw [Instr.variant, Variant.layout, assemble_loadConst, instrOf]
    congr 1
    · exact register_eq rfl (by change _ / 2 ^ 8 % _ = _; omega)
    · exact signedValue_eq rfl h (by change _ / 2 ^ 11 % _ = _; omega)
  | readMem off d b =>
    simp only [Instr.WellFormed, Instr.wellFormed, decide_eq_true_eq] at h
    rw [Instr.variant, Variant.layout, assemble_readMem, instrOf]
    congr 1
    · exact signedValue_eq rfl h (by change _ / 2 ^ 8 % _ = _; omega)
    · exact register_eq rfl (by change _ / 2 ^ 21 % _ = _; omega)
    · exact register_eq rfl (by change _ / 2 ^ 24 % _ = _; omega)
  | writeMem a b =>
    rw [Instr.variant, Variant.layout, assemble_writeMem, instrOf]
    congr 1
    · exact register_eq rfl (by change _ / 2 ^ 8 % _ = _; omega)
    · exact register_eq rfl (by change _ / 2 ^ 11 % _ = _; omega)
  | shiftRight a c d b =>
    simp only [Instr.WellFormed, Instr.wellFormed, Bool.and_eq_true, decide_eq_true_eq] at h
    obtain ⟨hc, hd⟩ := h
    rw [Instr.variant, Variant.layout, assemble_shiftRight, instrOf]
    congr 1
    · exact register_eq rfl (by change _ / 2 ^ 8 % _ = _; omega)
    · exact unsignedValue_eq rfl hc (by change _ / 2 ^ 11 % _ = _; omega)
    · exact signedValue_eq rfl hd (by change _ / 2 ^ 34 % _ = _; omega)
    · exact register_eq rfl (by change _ / 2 ^ 47 % _ = _; omega)

theorem accumulate_bytes (i : Instr) :
    accumulate i.bytes = i.variant.layout.assemble i.operands := by
  rw [Instr.bytes, accumulate_leBytes, Nat.mod_eq_of_lt (assemble_lt_and_low_byte i).left]

theorem layout_bytes_eq_succ (v : Variant) : ∃ m, v.layout.bytes = m + 1 :=
  ⟨v.layout.bytes - 1, by have := layout_bytes_range v; omega⟩

/-- An instruction's bytes begin with its opcode byte. -/
theorem bytes_eq_opcode_cons (i : Instr) : ∃ tail, i.bytes = i.opcode :: tail := by
  obtain ⟨m, hm⟩ := layout_bytes_eq_succ i.variant
  rw [Instr.bytes, Instr.length, hm, leBytes]
  refine ⟨_, congrArg (· :: _) (BitVec.eq_of_toNat_eq ?_)⟩
  rw [BitVec.toNat_ofNat, (assemble_lt_and_low_byte i).right]

theorem decode_bytes_append {i : Instr} (h : i.WellFormed) (rest : List Byte) :
    decode (i.bytes ++ rest) = .ok (i, i.length) := by
  obtain ⟨tail, htail⟩ := bytes_eq_opcode_cons i
  refine decode_eq_ok.mpr ⟨i.variant, i.opcode, tail ++ rest, ?_, rfl, rfl, ?_, ?_⟩
  · rw [htail, List.cons_append]
  · simp
  · rw [List.take_left' (bytes_length i), accumulate_bytes, instrOf_assemble h]

/-- Settles O7: the encoder gives `Instr.bytes`, and these decode to the instruction. -/
theorem decodeEncodeRoundTrip : Obligations.DecodeEncodeRoundTrip :=
  fun i rest h => ⟨i.bytes, encode_of_wellFormed h, bytes_length i, decode_bytes_append h rest⟩

end Sys2Proof
end

section
/-! Padding: the encoder leaves it 0 and the decoder ignores it, and no other bit
(30_encoding.md R98, R102, R105, R107). -/

namespace Sys2Proof

/-! ## The encoding of what was decoded -/

theorem extract_eq_operand_emod {v : Variant} {f : BitField} (hf : f ∈ v.layout.fields)
    (acc : Nat) : (f.extract acc : Int) = f.operand acc % 2 ^ f.width := by
  have hlt := extract_lt f acc
  rw [operand_eq hf]
  split
  case isTrue hk =>
    have hw := width_of_signed hf hk
    rw [hw] at hlt
    rw [signedValue_eq_ite hw, hw]
    split <;> omega
  case isFalse hk => exact (Int.emod_eq_of_lt (by omega) (mod_cast hlt)).symm

/-- The encoder places a decoded operand as the bits it was decoded from. -/
theorem place_operand {v : Variant} {f : BitField} (hf : f ∈ v.layout.fields) (acc : Nat) :
    f.place (f.operand acc) = f.extract acc * 2 ^ f.lo := by
  rw [place_eq, ← extract_eq_operand_emod hf, Int.toNat_natCast]

theorem assemble_instrOf (v : Variant) (acc : Nat) :
    v.layout.assemble (instrOf v acc).operands =
      v.layout.opcode.toNat + (v.layout.fields.map (fun f => f.extract acc * 2 ^ f.lo)).sum := by
  rw [Layout.assemble, operands_instrOf, List.zipWith_map_right, List.zipWith_self,
    List.map_congr_left fun f hf => place_operand hf acc]

/-- Clearing the topmost bits of an accumulator leaves what lies below them. -/
theorem clearBits_top {acc hi lo : Nat} (hle : lo ≤ hi) (hlt : acc < 2 ^ (hi + 1)) :
    clearBits acc (hi, lo) = acc % 2 ^ lo := by
  have htop : acc / 2 ^ lo < 2 ^ (hi - lo + 1) := by
    rw [Nat.div_lt_iff_lt_mul (by positivity), ← pow_add]
    rwa [show hi - lo + 1 + lo = hi + 1 by omega]
  rw [clearBits, Nat.shiftRight_eq_div_pow, Nat.one_shiftLeft, Nat.and_two_pow_sub_one_eq_mod,
    Nat.shiftLeft_eq, Nat.mod_eq_of_lt htop, Nat.mod_eq_sub_div_mul]

/-- The fields follow one another from bit `lo` on, and bit `hi` is the first above them. -/
def FieldsSpan (lo hi : Nat) (fields : List BitField) : Prop :=
  match fields with
  | [] => lo = hi
  | f :: rest => f.lo = lo ∧ FieldsSpan (lo + f.width) hi rest

theorem mod_of_fieldsSpan {lo hi : Nat} {fields : List BitField} (h : FieldsSpan lo hi fields)
    (acc : Nat) :
    acc % 2 ^ hi = acc % 2 ^ lo + (fields.map (fun f => f.extract acc * 2 ^ f.lo)).sum := by
  induction fields generalizing lo with
  | nil => simp [show lo = hi from h]
  | cons f rest ih =>
    obtain ⟨rfl, hrest⟩ := h
    rw [ih hrest, List.map_cons, List.sum_cons, extract_eq, pow_add, Nat.mod_mul,
      Nat.mul_comm (2 ^ f.lo), Nat.add_assoc]

/-- An accumulator with its padding cleared is its opcode and its fields, each in its place: the
fields follow one another from bit 8 on, and the padding is what lies above them. -/
theorem clearBits_padding_eq (v : Variant) {acc : Nat} (hop : acc % 2 ^ 8 = v.layout.opcode.toNat)
    (hlt : acc < 2 ^ (8 * v.layout.bytes)) :
    v.layout.padding.foldl clearBits acc =
      v.layout.opcode.toNat + (v.layout.fields.map (fun f => f.extract acc * 2 ^ f.lo)).sum := by
  rw [← hop]
  cases v with
  | loadConst =>
    have hspan : FieldsSpan 8 24 layoutLoadConst.fields := ⟨rfl, rfl, rfl⟩
    rw [Variant.layout, ← mod_of_fieldsSpan hspan]
    exact (Nat.mod_eq_of_lt hlt).symm
  | readMem =>
    have hspan : FieldsSpan 8 27 layoutReadMem.fields := ⟨rfl, rfl, rfl, rfl⟩
    rw [Variant.layout, ← mod_of_fieldsSpan hspan]
    exact clearBits_top (by decide) hlt
  | writeMem =>
    have hspan : FieldsSpan 8 14 layoutWriteMem.fields := ⟨rfl, rfl, rfl⟩
    rw [Variant.layout, ← mod_of_fieldsSpan hspan]
    exact clearBits_top (by decide) hlt
  | shiftRight =>
    have hspan : FieldsSpan 8 50 layoutShiftRight.fields := ⟨rfl, rfl, rfl, rfl, rfl⟩
    rw [Variant.layout, ← mod_of_fieldsSpan hspan]
    exact clearBits_top (by decide) hlt

theorem accumulate_cons_low_byte (b : Byte) (bs : List Byte) :
    accumulate (b :: bs) % 2 ^ 8 = b.toNat := by
  have := b.isLt
  rw [accumulate_cons]
  omega

/-- Bytes with the opcode of `v` are, up to their padding, those of the instruction they hold. -/
theorem bytes_instrOf {v : Variant} {bs : List Byte}
    (hop : accumulate bs % 2 ^ 8 = v.layout.opcode.toNat) (hlen : bs.length = v.layout.bytes) :
    (instrOf v (accumulate bs)).bytes = v.layout.clearPadding bs := by
  have hlt := accumulate_lt bs
  rw [hlen] at hlt
  rw [Instr.bytes, Instr.length, variant_instrOf, assemble_instrOf, Layout.clearPadding,
    clearBits_padding_eq v hop hlt]

/-- Settles O8: the encoder's accumulator and the cleared one are both the opcode and the fields. -/
theorem encodeDecodeClearsPadding : Obligations.EncodeDecodeClearsPadding := by
  intro bytes i n h
  have hwf : i.WellFormed := decode_ok_wellFormed h
  refine ⟨hwf, (decode_ok_length h).left, ?_⟩
  obtain ⟨v, op, rest, rfl, rfl, rfl, hlen, rfl⟩ := decode_eq_ok.mp h
  rw [encode_of_wellFormed hwf, variant_instrOf, bytes_instrOf]
  · obtain ⟨m, hm⟩ := layout_bytes_eq_succ v
    rw [hm, List.take_succ_cons, accumulate_cons_low_byte]
  · exact List.length_take_of_le hlen

/-! ## What the decoder ignores -/

/-- The opcode, the fields and the padding divide the bits of an instruction among them: a bit that
is no padding is one of the opcode or of a field, and the other way round. -/
theorem not_padding_iff (v : Variant) {k : Nat} (hk : k < 8 * v.layout.bytes) :
    (∀ p ∈ v.layout.padding, ¬ (p.2 ≤ k ∧ k ≤ p.1)) ↔
      k < 8 ∨ ∃ f ∈ v.layout.fields, f.lo ≤ k ∧ k < f.lo + f.width := by
  revert k; cases v <;> decide

theorem field_top_le {v : Variant} {f : BitField} (hf : f ∈ v.layout.fields) :
    f.lo + f.width ≤ 8 * v.layout.bytes := by
  revert f; cases v <;> decide

/-- A decoded instruction tells the raw value of every field and nothing else. -/
theorem instrOf_eq_iff (v : Variant) {acc acc' : Nat} :
    instrOf v acc = instrOf v acc' ↔ ∀ f ∈ v.layout.fields, f.extract acc = f.extract acc' := by
  constructor
  · intro h f hf
    have hops := congrArg Instr.operands h
    rw [operands_instrOf, operands_instrOf, List.map_inj_left] at hops
    have hraw : (f.extract acc : Int) = f.extract acc' := by
      rw [extract_eq_operand_emod hf, extract_eq_operand_emod hf, hops f hf]
    exact_mod_cast hraw
  · intro h
    have hreg : ∀ f ∈ v.layout.fields, f.register acc = f.register acc' :=
      fun f hf => congrArg (Fin.ofNat 8) (h f hf)
    have hsigned : ∀ f ∈ v.layout.fields, f.signedValue acc = f.signedValue acc' :=
      fun f hf => congrArg (signExtend f.width) (h f hf)
    have hunsigned : ∀ f ∈ v.layout.fields, f.unsignedValue acc = f.unsignedValue acc' :=
      fun f hf => congrArg Int.ofNat (h f hf)
    cases v with
    | loadConst =>
      rw [instrOf, instrOf, hreg fieldLoadConstB (by decide), hsigned fieldLoadConstC (by decide)]
    | readMem =>
      rw [instrOf, instrOf, hsigned fieldReadMemB (by decide), hreg fieldReadMemC (by decide),
        hreg fieldReadMemD (by decide)]
    | writeMem =>
      rw [instrOf, instrOf, hreg fieldWriteMemB (by decide), hreg fieldWriteMemC (by decide)]
    | shiftRight =>
      rw [instrOf, instrOf, hreg fieldShiftRightB (by decide),
        hunsigned fieldShiftRightC (by decide), hsigned fieldShiftRightD (by decide),
        hreg fieldShiftRightE (by decide)]

theorem decode_opcode_cons {v : Variant} {rest : List Byte}
    (hlen : rest.length + 1 = v.layout.bytes) :
    decode (v.layout.opcode :: rest) =
      .ok (instrOf v (accumulate (v.layout.opcode :: rest)), v.layout.bytes) := by
  have hlen' : (v.layout.opcode :: rest).length = v.layout.bytes := hlen
  exact decode_eq_ok.mpr ⟨v, _, rest, rfl, rfl, rfl, hlen'.ge, by rw [← hlen', List.take_length]⟩

theorem testBit_accumulate_cons_of_lt (b : Byte) (bs : List Byte) {k : Nat} (hk : k < 8) :
    (accumulate (b :: bs)).testBit k = b.toNat.testBit k := by
  rw [← accumulate_cons_low_byte b bs, Nat.testBit_mod_two_pow]
  simp [hk]

/-- Settles O9: decoding alike is having the same fields, whose bits and the opcode's are the bits
that are no padding. -/
theorem paddingAloneIsIgnored : Obligations.PaddingAloneIsIgnored := by
  intro v rest rest' hlen hlen'
  rw [decode_opcode_cons hlen, decode_opcode_cons hlen', Except.ok.injEq, Prod.mk.injEq,
    and_iff_left rfl, instrOf_eq_iff]
  constructor
  · intro h k hk hpad
    obtain hop | ⟨f, hf, hlo, hhi⟩ := (not_padding_iff v hk).mp hpad
    · rw [testBit_accumulate_cons_of_lt _ _ hop, testBit_accumulate_cons_of_lt _ _ hop]
    · exact extract_eq_iff.mp (h f hf) k hlo hhi
  · intro h f hf
    refine extract_eq_iff.mpr fun k hlo hhi => ?_
    have hk : k < 8 * v.layout.bytes := hhi.trans_le (field_top_le hf)
    exact h k hk ((not_padding_iff v hk).mpr (.inr ⟨f, hf, hlo, hhi⟩))

end Sys2Proof
end

section
/-! The wiring of the four formats: each operand as the bit string cut from the instruction's bytes
(30_encoding.md R88), and words written out by hand. -/

namespace Sys2Proof

theorem toNat_append_eq_add {m n : Nat} (x : BitVec m) (y : BitVec n) :
    (x ++ y).toNat = x.toNat * 2 ^ n + y.toNat := by
  rw [BitVec.toNat_append, ← Nat.shiftLeft_add_eq_or_of_lt y.isLt, Nat.shiftLeft_eq]

theorem toNat_extractLsb'_eq_div_mod {n : Nat} (lo w : Nat) (x : BitVec n) :
    (x.extractLsb' lo w).toNat = x.toNat / 2 ^ lo % 2 ^ w := by
  rw [BitVec.extractLsb'_toNat, Nat.shiftRight_eq_div_pow]

theorem register_eq_toFin {f : BitField} (hf : f.width = 3) {acc : Nat} {x : BitVec 3}
    (h : f.extract acc = x.toNat) : f.register acc = x.toFin :=
  Fin.ext ((register_val hf acc).trans h)

theorem signedValue_eq_toInt {f : BitField} (hf : f.width = 13) {acc : Nat} {x : BitVec 13}
    (h : f.extract acc = x.toNat) : f.signedValue acc = x.toInt := by
  rw [BitField.signedValue, hf, h, signExtend_eq_toInt (by decide) x.isLt, BitVec.ofNat_toNat,
    BitVec.setWidth_eq]

theorem unsignedValue_eq_toNat {f : BitField} {acc w : Nat} {x : BitVec w}
    (h : f.extract acc = x.toNat) : f.unsignedValue acc = (x.toNat : Int) :=
  congrArg Int.ofNat h

/-! Each operand's field is a quotient and a remainder of the accumulator, which is a sum over the
bytes, and so is the string of bits cut from the bytes. -/

theorem instrOf_loadConst_wired (b1 b2 : Byte) :
    instrOf .loadConst (accumulate [234, b1, b2]) =
      .loadConst (b1.extractLsb' 0 3).toFin (b2 ++ b1.extractLsb' 3 5).toInt := by
  rw [instrOf, register_eq_toFin (x := b1.extractLsb' 0 3) rfl ?_,
    signedValue_eq_toInt (x := b2 ++ b1.extractLsb' 3 5) rfl ?_]
  all_goals
    simp only [extract_eq, fieldLoadConstB, fieldLoadConstC, BitField.width, accumulate_cons,
      accumulate_nil, toNat_append_eq_add, toNat_extractLsb'_eq_div_mod]
    omega

theorem instrOf_readMem_wired (b1 b2 b3 : Byte) :
    instrOf .readMem (accumulate [102, b1, b2, b3]) =
      .readMem (b2.extractLsb' 0 5 ++ b1).toInt (b2.extractLsb' 5 3).toFin
        (b3.extractLsb' 0 3).toFin := by
  rw [instrOf, signedValue_eq_toInt (x := b2.extractLsb' 0 5 ++ b1) rfl ?_,
    register_eq_toFin (x := b2.extractLsb' 5 3) rfl ?_,
    register_eq_toFin (x := b3.extractLsb' 0 3) rfl ?_]
  all_goals
    simp only [extract_eq, fieldReadMemB, fieldReadMemC, fieldReadMemD, BitField.width,
      accumulate_cons, accumulate_nil, toNat_append_eq_add, toNat_extractLsb'_eq_div_mod]
    omega

theorem instrOf_writeMem_wired (b1 : Byte) :
    instrOf .writeMem (accumulate [90, b1]) =
      .writeMem (b1.extractLsb' 0 3).toFin (b1.extractLsb' 3 3).toFin := by
  rw [instrOf, register_eq_toFin (x := b1.extractLsb' 0 3) rfl ?_,
    register_eq_toFin (x := b1.extractLsb' 3 3) rfl ?_]
  all_goals
    simp only [extract_eq, fieldWriteMemB, fieldWriteMemC, BitField.width, accumulate_cons,
      accumulate_nil, toNat_extractLsb'_eq_div_mod]
    omega

theorem instrOf_shiftRight_wired (b1 b2 b3 b4 b5 b6 : Byte) :
    instrOf .shiftRight (accumulate [224, b1, b2, b3, b4, b5, b6]) =
      .shiftRight (b1.extractLsb' 0 3).toFin
        ((b4.extractLsb' 0 2 ++ b3 ++ b2 ++ b1.extractLsb' 3 5).toNat : Int)
        (b5.extractLsb' 0 7 ++ b4.extractLsb' 2 6).toInt
        (b6.extractLsb' 0 2 ++ b5.extractLsb' 7 1).toFin := by
  rw [instrOf, register_eq_toFin (x := b1.extractLsb' 0 3) rfl ?_,
    unsignedValue_eq_toNat (x := b4.extractLsb' 0 2 ++ b3 ++ b2 ++ b1.extractLsb' 3 5) ?_,
    signedValue_eq_toInt (x := b5.extractLsb' 0 7 ++ b4.extractLsb' 2 6) rfl ?_,
    register_eq_toFin (x := b6.extractLsb' 0 2 ++ b5.extractLsb' 7 1) rfl ?_]
  all_goals
    simp only [extract_eq, fieldShiftRightB, fieldShiftRightC, fieldShiftRightD, fieldShiftRightE,
      BitField.width, accumulate_cons, accumulate_nil, toNat_append_eq_add,
      toNat_extractLsb'_eq_div_mod]
    omega

/-- Settles O4: a format's bytes decode to the instruction of their accumulator, field by field. -/
theorem crossByteWiring : Obligations.CrossByteWiring := by
  intro b1 b2 b3 b4 b5 b6
  rw [← instrOf_loadConst_wired, ← instrOf_readMem_wired, ← instrOf_writeMem_wired,
    ← instrOf_shiftRight_wired]
  exact ⟨decode_opcode_cons (v := .loadConst) rfl, decode_opcode_cons (v := .readMem) rfl,
    decode_opcode_cons (v := .writeMem) rfl, decode_opcode_cons (v := .shiftRight) rfl⟩

/-- Settles O1: the decoder run on the six byte strings. -/
theorem decodesWrittenOutWords : Obligations.DecodesWrittenOutWords :=
  ⟨rfl, rfl, rfl, rfl, rfl, rfl⟩

end Sys2Proof
end

section
/-! The faults of the decoder: an undefined opcode byte, and an instruction cut short by the end of
the program (30_encoding.md R97, R100; 60_exceptions.md R201, R202, R211). -/

namespace Sys2Proof.Machine

section

variable {s : State} {op : Byte} {rest : List Byte}

theorem progLen_eq_of_drop (h : s.prog.drop s.pc = op :: rest) :
    s.progLen = s.pc + (op :: rest).length := by
  have hlen := congrArg List.length h
  rw [List.length_drop] at hlen
  simp only [State.progLen, List.length_cons] at hlen ⊢
  omega

theorem not_atEnd_of_drop (h : s.prog.drop s.pc = op :: rest) : ¬ AtEnd s := by
  have hlen := progLen_eq_of_drop h
  simp only [AtEnd, List.length_cons] at hlen ⊢
  omega

/-- Where the step reaches the decoder and the decoder fails on `op`, the step takes that fault. -/
theorem step_of_decode_failure {e : DecodeFailure} {f : Raised} (hrun : s.run = .running)
    (hlim : ¬ AtLimit s) (hdrop : s.prog.drop s.pc = op :: rest)
    (hdec : decode (op :: rest) = .error e)
    (hfault : (e = .unknownOpcode op ∧ f = .unknownOpcode) ∨
      (e = .truncatedInstruction op ∧ f = .truncatedInstruction)) :
    step s = .next (raiseFault f s.pc op s) := by
  rw [step_of_running hrun, cycle, if_neg (not_atEnd_of_drop hdrop), if_neg hlim, fetchDecode,
    decodeAt, hdrop, hdec]
  obtain ⟨rfl, rfl⟩ | ⟨rfl, rfl⟩ := hfault
  · rfl
  · rfl

end

theorem no_step_of_faulted {s : State} (h : s.run = .faulted) (u : State) : step s ≠ .next u := by
  intro hstep
  have hrun := (step_cases hstep).left
  rw [h] at hrun
  cases hrun

theorem isNone_variantOf_ofNat_iff {b : Nat} (hb : b < 256) :
    (variantOf (BitVec.ofNat 8 b)).isNone = true ↔ b ∉ ({234, 102, 90, 224} : Finset Nat) := by
  have hne : ∀ c : Byte, BitVec.ofNat 8 b ≠ c ↔ b ≠ c.toNat := fun c => by
    rw [Ne, ← BitVec.toNat_inj, BitVec.toNat_ofNat, Nat.mod_eq_of_lt hb]
  simp only [Option.isNone_iff_eq_none, variantOf_eq_none, hne, Finset.mem_insert,
    Finset.mem_singleton, not_or]
  rfl

theorem length_filter_range (n : Nat) (p : Nat → Bool) :
    ((List.range n).filter p).length = ((Finset.range n).filter (fun b => p b = true)).card := by
  rw [← Nat.count_eq_card_filter_range, Nat.count, List.countP_eq_length_filter]
  simp only [Bool.decide_eq_true]

/-- The bytes that select no variant are the complement of the four opcodes. -/
theorem undefined_opcode_count :
    ((List.range 256).filter (fun b => (variantOf (BitVec.ofNat 8 b)).isNone)).length = 252 := by
  rw [length_filter_range,
    Finset.filter_congr fun b hb => isNone_variantOf_ofNat_iff (Finset.mem_range.mp hb),
    Finset.filter_notMem_eq_sdiff, Finset.card_sdiff_of_subset (by simp [Finset.insert_subset_iff]),
    Finset.card_range]
  rfl

/-- Settles O16: the step takes the decoder's fault, and a Faulted machine has no step. -/
theorem unknownOpcodeIsFatal : Obligations.UnknownOpcodeIsFatal := by
  refine ⟨fun s op rest hrun hlim hdrop h1 h2 h3 h4 => ?_, undefined_opcode_count⟩
  have hdec : decode (op :: rest) = .error (.unknownOpcode op) :=
    decode_eq_unknownOpcode.mpr ⟨rest, rfl, variantOf_eq_none.mpr ⟨h1, h2, h3, h4⟩⟩
  have hstep := step_of_decode_failure hrun hlim hdrop hdec (.inl ⟨rfl, rfl⟩)
  exact ⟨hdec, _, hstep, rfl, rfl, rfl, rfl, rfl, rfl, rfl, fun _ => rfl,
    fun _ => rfl, ⟨rfl, rfl⟩, no_step_of_faulted rfl⟩

theorem exists_variant_of_opcode_row {op : Byte} {n : Nat}
    (h : (op, n) ∈ [((234 : Byte), 3), (102, 4), (90, 2), (224, 7)]) :
    ∃ v : Variant, op = v.layout.opcode ∧ n = v.layout.bytes := by
  simp only [List.mem_cons, Prod.mk.injEq, List.not_mem_nil, or_false] at h
  obtain ⟨rfl, rfl⟩ | ⟨rfl, rfl⟩ | ⟨rfl, rfl⟩ | ⟨rfl, rfl⟩ := h
  · exact ⟨.loadConst, rfl, rfl⟩
  · exact ⟨.readMem, rfl, rfl⟩
  · exact ⟨.writeMem, rfl, rfl⟩
  · exact ⟨.shiftRight, rfl, rfl⟩

/-- Settles O17: `pc + n` is beyond the program exactly where fewer than `n` bytes remain. -/
theorem truncatedInstructionFaults : Obligations.TruncatedInstructionFaults := by
  intro s op rest n hrun hlim hdrop hrow
  obtain ⟨v, rfl, rfl⟩ := exists_variant_of_opcode_row hrow
  have hlen := progLen_eq_of_drop hdrop
  constructor
  · intro hshort
    have hdec : decode (v.layout.opcode :: rest) = .error (.truncatedInstruction v.layout.opcode) :=
      decode_eq_truncated.mpr ⟨v, rest, rfl, rfl, by omega⟩
    have hstep := step_of_decode_failure hrun hlim hdrop hdec (.inr ⟨rfl, rfl⟩)
    exact ⟨hdec, _, hstep, rfl, rfl, rfl, rfl, rfl, rfl, rfl, fun _ => rfl,
      fun _ => rfl, ⟨rfl, rfl⟩⟩
  · intro hfits
    have hdec := decode_eq_ok.mpr ⟨v, v.layout.opcode, rest, rfl, rfl, rfl, by omega, rfl⟩
    exact ⟨_, hdec, step_of_decodes hrun hlim (by rw [decodeAt, hdrop, hdec])⟩

end Sys2Proof.Machine
end

section
/-! One step by the run state, by the end of the program, by the ceiling and by what stands at `pc`;
the run states a step can end in; and that every run ends (40_fetch_decode_dispatch.md R120 to R137). -/

namespace Sys2Proof.Machine

section

variable {s t : State}

theorem step_of_ready (h : s.run = .ready) : step s = .fault .notStarted := by
  simp only [step, h]

theorem step_of_halted (h : s.run = .halted) : step s = .fault .halted := by
  simp only [step, h]

theorem step_of_faulted (h : s.run = .faulted) : step s = .fault .faulted := by
  simp only [step, h]

theorem step_of_stepLimited (h : s.run = .stepLimited) : step s = .fault .stepLimited := by
  simp only [step, h]

theorem step_of_atEnd (hrun : s.run = .running) (hend : AtEnd s) :
    step s = .next { s with run := .halted } := by
  rw [step_of_running hrun, cycle, if_pos hend]

theorem step_of_atLimit (hrun : s.run = .running) (hend : ¬ AtEnd s) (hlim : AtLimit s) :
    step s = .next { s with run := .stepLimited } := by
  rw [step_of_running hrun, cycle, if_neg hend, if_pos hlim]

theorem decodeAt_eq_noByte {prog : List Byte} {a : Nat} :
    decodeAt prog a = .error .noByte ↔ prog.length ≤ a :=
  decode_eq_noByte.trans List.drop_eq_nil_iff

theorem step_of_pastEnd (hrun : s.run = .running) (hlim : ¬ AtLimit s) (hpast : s.progLen < s.pc) :
    step s = .refused .decodePastEnd := by
  have hend : ¬ AtEnd s := hpast.ne'
  rw [step_of_running hrun, cycle, if_neg hend, if_neg hlim, fetchDecode,
    decodeAt_eq_noByte.mpr hpast.le]

/-- In the program or at its end there is a next state: each test of the step that stops it sets the
run state, an instruction always ends, and a byte is there to decode before the end. -/
theorem exists_step_of_running (hrun : s.run = .running) (hpc : s.pc ≤ s.progLen) :
    ∃ t, step s = .next t := by
  by_cases hend : AtEnd s
  · exact ⟨_, step_of_atEnd hrun hend⟩
  by_cases hlim : AtLimit s
  · exact ⟨_, step_of_atLimit hrun hend hlim⟩
  match hdec : decodeAt s.prog s.pc with
  | .ok (i, n) =>
    obtain ⟨t, he, -⟩ := exec_ends i s
    exact ⟨t, (step_of_decodes hrun hlim hdec).trans he⟩
  | .error (.unknownOpcode op) =>
    obtain ⟨rest, hdrop, -⟩ := decode_eq_unknownOpcode.mp hdec
    exact ⟨_, step_of_decode_failure hrun hlim hdrop (hdrop ▸ hdec) (.inl ⟨rfl, rfl⟩)⟩
  | .error (.truncatedInstruction op) =>
    obtain ⟨-, rest, hdrop, -, -⟩ := decode_eq_truncated.mp hdec
    exact ⟨_, step_of_decode_failure hrun hlim hdrop (hdrop ▸ hdec) (.inr ⟨rfl, rfl⟩)⟩
  | .error .noByte => exact absurd (hpc.antisymm (decodeAt_eq_noByte.mp hdec)) hend

/-- The run state a step ends in says why it ended there: the end test gives `Halted`, the ceiling
`StepLimited`, and what comes after them runs on or faults. -/
theorem step_run_cases (h : step s = .next t) :
    (AtEnd s ∧ t.run = .halted) ∨ (¬ AtEnd s ∧ AtLimit s ∧ t.run = .stepLimited) ∨
      (t.run = .running ∨ t.run = .faulted) := by
  obtain ⟨hrun, ⟨hend, rfl⟩ | ⟨hend, hlim, rfl⟩ | ⟨-, -, op, -, rfl⟩ | ⟨-, -, op, -, rfl⟩ |
    ⟨-, -, i, n, -, he⟩⟩ := step_cases h
  · exact .inl ⟨hend, rfl⟩
  · exact .inr (.inl ⟨hend, hlim, rfl⟩)
  · exact .inr (.inr (.inr rfl))
  · exact .inr (.inr (.inr rfl))
  · obtain ⟨hsame, -⟩ | ⟨hfaulted, -⟩ := exec_completes_or_faults he
    · exact .inr (.inr (.inl (hsame.trans hrun)))
    · exact .inr (.inr (.inr hfaulted))

theorem atEnd_of_step_halted (h : step s = .next t) (ht : t.run = .halted) : AtEnd s := by
  obtain ⟨hend, -⟩ | ⟨-, -, hr⟩ | hr | hr := step_run_cases h
  · exact hend
  all_goals cases ht.symm.trans hr

theorem atLimit_of_step_stepLimited (h : step s = .next t) (ht : t.run = .stepLimited) :
    ¬ AtEnd s ∧ AtLimit s := by
  obtain ⟨-, hr⟩ | ⟨hend, hlim, -⟩ | hr | hr := step_run_cases h
  case inr.inl => exact ⟨hend, hlim⟩
  all_goals cases ht.symm.trans hr

theorem step_runs_on_or_terminal (h : step s = .next t) :
    t.run = .running ∨ t.run.terminal = true := by
  obtain ⟨-, hr⟩ | ⟨-, -, hr⟩ | hr | hr := step_run_cases h
  case inr.inr.inl => exact .inl hr
  all_goals exact .inr (by rw [hr]; rfl)

end

/-- Settles O21, by strong induction on the bytes left: a step that runs on has used two of them at
least, and any other step ends the run. -/
theorem runsTerminate : Obligations.RunsTerminate := by
  intro s hrun hpc
  induction hleft : s.progLen - s.pc using Nat.strong_induction_on generalizing s with
  | _ left ih =>
    subst hleft
    obtain ⟨t, hstep⟩ := exists_step_of_running hrun hpc
    obtain hon | hstop := step_runs_on_or_terminal hstep
    · obtain ⟨hmoved, hfits⟩ := step_pc_of_running hstep hon
      have hlen : t.progLen = s.progLen := congrArg List.length (step_sameProgram hstep).left
      obtain ⟨k, u, hk, hu, hterm⟩ := ih (t.progLen - t.pc) (by omega) t hon hfits rfl
      exact ⟨k + 1, u, by omega, (run_succ hstep).trans hu, hterm⟩
    · exact ⟨1, t, by omega, run_succ hstep, hstop⟩

/-- Settles O12: the end test comes first, and nothing after it sets `Halted`. -/
theorem haltsExactlyAtEnd : Obligations.HaltsExactlyAtEnd := by
  refine ⟨fun s hrun hend => step_of_atEnd hrun hend, fun s hnil => ?empty,
    fun s t _ h ht => atEnd_of_step_halted h ht, fun s h => h.pc_le_progLen⟩
  case empty =>
    rw [hostReset, hnil]
    exact step_of_atEnd rfl rfl

/-- Settles O15: a next state up to the end of the program, the decoder's lack of a byte beyond it. -/
theorem runningIsNeverStuck : Obligations.RunningIsNeverStuck :=
  ⟨fun _ hrun hpc => exists_step_of_running hrun hpc,
    fun _ hrun hlim hpast => step_of_pastEnd hrun hlim hpast⟩

/-- Settles O11: the step executes what it decodes, and every instruction makes its own advance. -/
theorem stepRunsDecodedInstruction : Obligations.StepRunsDecodedInstruction := by
  intro s i n hrun hlim hdec
  obtain ⟨rfl, -, hfits⟩ := decodeAt_ok_bounds hdec
  have hstep : step s = exec i s := step_of_decodes hrun hlim hdec
  exact ⟨hstep, rfl, hfits, fun t h => exec_counted (hstep.symm.trans h)⟩

/-- Settles O13: the ceiling is tested before the fetch, and nothing else sets `StepLimited`. -/
theorem ceilingStopsBeforeFetch : Obligations.CeilingStopsBeforeFetch :=
  ⟨fun _ hrun hend hlim => step_of_atLimit hrun hend hlim,
    fun _ _ h ht => atLimit_of_step_stepLimited h ht⟩

/-- Outside Ready the host can do nothing but reset: a load is refused and `start` is ignored. -/
theorem hostMove_eq_self_of_not_ready {s t : State} {m : HostMove} (hready : s.run ≠ .ready)
    (hm : m ≠ .reset) (h : hostMove m s = .next t) : t = s := by
  cases m with
  | reset => exact absurd rfl hm
  | load bytes => exact absurd (hostMove_load_eq_next.mp h).left hready
  | start =>
    cases (hostMove_start_of_not_ready hready).symm.trans h
    rfl

/-- Settles O14: one lemma per run state without a step, and a terminal state is not Ready. -/
theorem noStepOutsideRunning : Obligations.NoStepOutsideRunning :=
  ⟨fun _ h => step_of_ready h, fun _ h => step_of_halted h, fun _ h => step_of_faulted h,
    fun _ h => step_of_stepLimited h, fun _ _ _ hterm hm h =>
      hostMove_eq_self_of_not_ready (not_ready_nor_running_of_terminal hterm).left hm h⟩

theorem hostMove_keeps_regs_and_mem {s t : State} {m : HostMove} (hm : m ≠ .reset)
    (h : hostMove m s = .next t) : t.regs = s.regs ∧ t.mem = s.mem := by
  by_cases hready : s.run = .ready
  · cases m with
    | reset => exact absurd rfl hm
    | load bytes =>
      obtain ⟨-, -, rfl⟩ := hostMove_load_eq_next.mp h
      exact ⟨rfl, rfl⟩
    | start =>
      cases (hostMove_start_of_ready hready).symm.trans h
      exact ⟨rfl, rfl⟩
  · cases hostMove_eq_self_of_not_ready hready hm h
    exact ⟨rfl, rfl⟩

/-- Settles O39: what each move answers, with the two conditions of a load. -/
theorem hostProtocol : Obligations.HostProtocol := by
  refine ⟨fun s h => hostMove_start_of_ready h, fun s h => hostMove_start_of_not_ready h,
    fun s bytes hready hfits => hostMove_load_eq_next.mpr ⟨hready, hfits, rfl⟩, ?refused,
    fun s t m hm h => hostMove_keeps_regs_and_mem hm h, fun s t m h => hostMove_keeps_cfg h⟩
  case refused =>
    intro s t bytes hbad h
    obtain ⟨hready, hfits, -⟩ := hostMove_load_eq_next.mp h
    obtain hnot | hlong := hbad
    · exact hnot hready
    · exact hlong.not_ge hfits

end Sys2Proof.Machine
end

section
/-! LOAD_CONST: the word of a constant is its 13-bit field sign-extended (41_load_const.md R150). -/

namespace Sys2Proof.Machine

section
variable {c : Int} (h : InSigned13 c)
include h

/-- The constant's word is the sign extension of its field. -/
theorem to32_eq_signExtend : to32 c = (BitVec.ofInt 13 c).signExtend 32 := by
  obtain ⟨hlow, hhigh⟩ := h
  have hfield : (BitVec.ofInt 13 c).toInt = c := by
    rw [BitVec.toInt_ofInt]
    exact Int.bmod_eq_of_le (by omega) (by omega)
  apply BitVec.eq_of_toInt_eq
  rw [BitVec.toInt_signExtend_of_le (by decide), hfield, ← sint_eq_toInt,
    sint_to32 (by omega) (by omega)]

theorem sint_to32_of_inSigned13 : sint (to32 c) = c := by
  obtain ⟨hlow, hhigh⟩ := h
  exact sint_to32 (by omega) (by omega)

/-- Bits `[12:0]` of the word are the field, the others copies of field bit 12. -/
theorem getLsbD_to32 {k : Nat} (hk : k < 32) :
    (to32 c).getLsbD k = (BitVec.ofInt 13 c).getLsbD (min k 12) := by
  rw [to32_eq_signExtend h, BitVec.getLsbD_signExtend]
  by_cases hfield : k < 13
  · rw [min_eq_left (by omega)]
    simp [hk, hfield]
  · rw [min_eq_right (by omega)]
    simp [hk, hfield, BitVec.msb_eq_getLsbD_last]

end

/-- Settles O22: LOAD_CONST is the advance and one register write of the constant's word. -/
theorem loadConstResult : Obligations.LoadConstResult := by
  intro reg const13 s hwf
  have hrange : InSigned13 const13 := of_decide_eq_true hwf
  refine ⟨_, exec_loadConst reg const13 s, ⟨rfl, rfl⟩, ?value, ?bits, ?others, fun _ => rfl,
    ⟨rfl, rfl, rfl, rfl⟩, ⟨rfl, rfl⟩, rfl⟩
  case value =>
    rw [readReg_writeReg_same]
    exact sint_to32_of_inSigned13 hrange
  case bits =>
    intro k hk
    rw [readReg_writeReg_same]
    exact getLsbD_to32 hrange hk
  case others =>
    intro r hr
    rw [readReg_writeReg_other _ _ hr.symm, readReg_advance]

end Sys2Proof.Machine
end

section
/-! The words a program can make: the constants are among them, shifting stays among them, and so does
every word an instruction moves (41_load_const.md R151). -/

namespace Sys2Proof.Machine

theorem makeable_to32 {c : Int} (h : InSigned13 c) : Makeable (to32 c) := by
  refine ⟨c, 0, h, ?_⟩
  rw [lsr32_eq_ushiftRight, clampAmount_natCast, BitVec.ushiftRight_zero]

theorem makeable_of_eq_zero {w : Word} (h : w = 0) : Makeable w :=
  h ▸ makeable_to32 (c := 0) (by decide)

/-- Two shifts in a row are one shift by the sum of the amounts. -/
theorem lsr32_lsr32 (w : Word) (amt : Nat) (amt' : Int) :
    lsr32 (lsr32 w amt) amt' = lsr32 w ((amt + clampAmount amt' : Nat) : Int) := by
  simp only [lsr32_eq_ushiftRight, clampAmount_natCast, BitVec.shiftRight_add]

theorem Makeable.shifted {w : Word} (h : Makeable w) (amt : Int) : Makeable (lsr32 w amt) := by
  obtain ⟨c, amt₀, hc, rfl⟩ := h
  exact ⟨c, _, hc, lsr32_lsr32 _ amt₀ amt⟩

/-! ## The updates of the state -/

theorem AllMakeable.keep_writeReg {s : State} (h : AllMakeable s) (r : RegIdx) {w : Word}
    (hw : Makeable w) : AllMakeable (writeReg s r w) := by
  obtain ⟨hregs, hmem⟩ := h
  refine ⟨fun q => ?_, hmem⟩
  rw [readReg_writeReg]
  split
  · exact hw
  · exact hregs q

theorem AllMakeable.keep_store {s : State} (h : AllMakeable s) (hwf : s.mem.wf = true) (a : Nat)
    {w : Word} (hw : Makeable w) : AllMakeable { s with mem := s.mem.write a w } := by
  obtain ⟨hregs, hmem⟩ := h
  refine ⟨hregs, fun b => ?_⟩
  by_cases hb : b = a
  · rw [hb, read_write_same hwf]
    exact hw
  · rw [read_write_other _ _ hb]
    exact hmem b

/-! ## Instructions and steps -/

theorem AllMakeable.makeable_wordMoved {s : State} (h : AllMakeable s) {i : Instr} (hi : i.WellFormed) :
    Makeable (wordMoved i s) := by
  obtain ⟨hregs, hmem⟩ := h
  cases i with
  | loadConst r c => exact makeable_to32 (of_decide_eq_true hi)
  | readMem off r base => exact hmem _
  | writeMem r base => exact hregs r
  | shiftRight r amt off base => exact (hregs r).shifted amt

/-- The one word an instruction moves is makeable, and the advance and a fault move none. -/
theorem AllMakeable.keep_exec {s t : State} (h : AllMakeable s) (hwf : s.mem.wf = true) {i : Instr}
    (hi : i.WellFormed) (he : exec i s = .next t) : AllMakeable t := by
  have hadvance : AllMakeable (advance i.length s) := h
  cases exec_effect he with
  | faulted => exact hadvance
  | wrote => exact hadvance.keep_writeReg _ (h.makeable_wordMoved hi)
  | stored => exact hadvance.keep_store hwf _ (h.makeable_wordMoved hi)

theorem allMakeable_afterReset (cfg : Config) (prog : List Byte) :
    AllMakeable (State.afterReset cfg prog) :=
  ⟨fun r => makeable_of_eq_zero (readReg_afterReset cfg prog r),
    fun a => makeable_of_eq_zero (read_nil a)⟩

/-- Settles O48: of the five things a step can do, executing what it decoded alone moves a word. -/
theorem onlyMakeableWordsAppear : Obligations.OnlyMakeableWordsAppear := by
  refine ⟨fun s => allMakeable_afterReset s.cfg s.prog, fun s t hwf h hstep => ?_⟩
  obtain ⟨-, ⟨-, rfl⟩ | ⟨-, -, rfl⟩ | ⟨-, -, op, -, rfl⟩ | ⟨-, -, op, -, rfl⟩ |
    ⟨-, -, i, n, hdec, he⟩⟩ := step_cases hstep
  · exact h
  · exact h
  · exact h
  · exact h
  · exact h.keep_exec hwf (decode_ok_wellFormed hdec) he

end Sys2Proof.Machine
end

section
/-! The data access of an instruction by its address (20_memory.md R65, R66): outside data memory every
instruction faults alike, and inside a store leaves the word it moves at that address alone
(42_memory_access.md R160, R161). -/

namespace Sys2Proof.Machine

section
variable {i : Instr} {s : State} {addr : Int} (ha : accessAddress i s = some addr)
include ha

theorem exec_boundsFaulted (hout : addr < 0 ∨ (s.cfg.memSize : Int) ≤ addr) :
    ∃ t, exec i s = .next t ∧ Counted i.length s t ∧ BoundsFaulted i.opcode addr s t := by
  have hb : ¬ InBounds s.cfg addr := fun ⟨_, _⟩ => by omega
  exact ⟨_, exec_of_not_inBounds ha hb, ⟨rfl, rfl⟩,
    rfl, rfl, rfl, rfl, rfl, fun _ => rfl, fun _ => rfl, rfl, rfl⟩

/-- The canonical form of data memory is what makes the word stored the word read back. -/
theorem exec_stores_wordMoved (hr : registerWritten i = none) (hwf : s.mem.wf = true)
    (hb : InBounds s.cfg addr) :
    ∃ t, exec i s = .next t ∧ Counted i.length s t ∧
      t.mem.read addr.toNat = wordMoved i s ∧
      (∀ a : Nat, (a : Int) ≠ addr → t.mem.read a = s.mem.read a) ∧
      SameRegs s t ∧ SameRecord s t ∧ SameProgram s t ∧ t.run = s.run := by
  have hexec := exec_of_store hr ha hb
  exact ⟨_, hexec, ⟨rfl, rfl⟩, read_write_same hwf _ _,
    fun _ hne => exec_keeps_other_words hexec ha hne,
    fun _ => rfl, ⟨rfl, rfl, rfl, rfl⟩, ⟨rfl, rfl⟩, rfl⟩

end

/-- Settles O23: in bounds READ_MEM is the advance and one register write of the word read, the address
being that of the state before the write, so that the destination may be the base. -/
theorem readMemResult : Obligations.ReadMemResult := by
  rintro off dst base s addr rfl
  refine ⟨fun hb => ?_, exec_boundsFaulted (i := .readMem off dst base) rfl⟩
  have hexec := exec_readMem_inBounds (dst := dst) hb
  exact ⟨_, hexec, ⟨rfl, rfl⟩, readReg_writeReg_same _ _ _,
    fun r hr => exec_keeps_other_registers hexec (by simpa [registerWritten] using hr.symm),
    fun _ => rfl, ⟨rfl, rfl, rfl, rfl⟩, ⟨rfl, rfl⟩, rfl⟩

/-- Settles O24: WRITE_MEM is a store of its source register at an effective address of offset 0. -/
theorem writeMemResult : Obligations.WriteMemResult := by
  rintro src addrReg s addr hwf rfl
  have ha : accessAddress (.writeMem src addrReg) s = some (sint (readReg s addrReg)) :=
    congrArg some (Int.add_zero _)
  exact ⟨exec_stores_wordMoved ha rfl hwf, exec_boundsFaulted ha⟩

end Sys2Proof.Machine
end

section
/-! SHIFT_RIGHT: the store of the shifter's word (43_shift_right.md R180), and why no amount it can have
is negative (R183). -/

namespace Sys2Proof.Machine

/-- An unsigned amount leaves two of the three ranges of the shifter (00_scope.md R15). -/
theorem uint_lsr32_natCast (w : Word) (amt : Nat) :
    uint (lsr32 w amt) = if amt < 32 then uint w / 2 ^ amt else 0 := by
  split
  case isTrue => exact uint_lsr32_of_nonneg w (Int.natCast_nonneg amt)
  case isFalse h =>
    rw [lsr32_of_ge_width w (by omega)]
    rfl

/-- Settles O25: SHIFT_RIGHT is a store of its source register shifted by its amount. -/
theorem shiftRightResult : Obligations.ShiftRightResult := by
  rintro val amt off base s addr - hwf rfl
  have ha : accessAddress (.shiftRight val amt off base) s =
      some (sint (readReg s base) + off) := rfl
  refine ⟨fun hb => ?stored, exec_boundsFaulted ha⟩
  case stored =>
    obtain ⟨t, hexec, hcounted, hword, hframe⟩ := exec_stores_wordMoved ha rfl hwf hb
    refine ⟨t, hexec, hcounted, ?_, hframe⟩
    rw [hword]
    exact uint_lsr32_natCast (readReg s val) amt

/-! ## The event `diag_negshift` -/

/-- The amount of a well-formed instruction is a value of an unsigned field. -/
theorem instrDiag_of_wellFormed {i : Instr} (h : i.WellFormed) : instrDiag i = false := by
  cases i with
  | loadConst r c => rfl
  | readMem off r base => rfl
  | writeMem r base => rfl
  | shiftRight r amt off base =>
    obtain ⟨hamt, -⟩ := Bool.and_eq_true_iff.mp h
    obtain ⟨hnonneg, -⟩ : InUnsigned23 amt := of_decide_eq_true hamt
    exact decide_eq_false hnonneg.not_gt

/-- A step raises the event only through the instruction it decodes. -/
theorem exists_decode_of_stepDiag {s : State} (h : stepDiag s = true) :
    ∃ i n, decodeAt s.prog s.pc = .ok (i, n) ∧ instrDiag i = true := by
  cases hrun : s.run with
  | running =>
    simp only [stepDiag, hrun, fetchDecode] at h
    split at h
    · cases h
    · split at h
      · exact ⟨_, _, ‹_›, h⟩
      · cases h
  | ready | halted | faulted | stepLimited => simp [stepDiag, hrun] at h

/-- Settles O27: what the decoder answers is well-formed. -/
theorem negshiftNeverRaised : Obligations.NegshiftNeverRaised := by
  intro s
  by_contra hraised
  obtain ⟨i, n, hdec, hdiag⟩ := exists_decode_of_stepDiag (Bool.eq_true_of_not_eq_false hraised)
  cases hdiag.symm.trans (instrDiag_of_wellFormed (decode_ok_wellFormed hdec))

end Sys2Proof.Machine
end

section
/-! Every fault of a step, said once: what it raised, at which state, and whose opcode byte the record
holds; then that a fault is precise and which fault test a step ends at (60_exceptions.md R203, R208,
R211, R212). -/

namespace Sys2Proof.Machine

/-- The opcode byte of what decodes at `a` stands at `a`. -/
theorem getElem?_of_decodes {prog : List Byte} {a n : Nat} {i : Instr}
    (h : decodeAt prog a = .ok (i, n)) : prog[a]? = some i.opcode :=
  List.head?_drop.symm.trans (decode_ok_opcode h)

theorem getElem?_of_drop {prog rest : List Byte} {a : Nat} {op : Byte}
    (h : prog.drop a = op :: rest) : prog[a]? = some op :=
  List.head?_drop.symm.trans (congrArg List.head? h)

/-- `MemoryBounds` is the one fault an instruction can raise (60_exceptions.md R203). -/
theorem exec_faulted {i : Instr} {s t : State} (h : exec i s = .next t) (hs : s.run ≠ .faulted)
    (ht : t.run = .faulted) :
    ∃ addr, t = raiseFault (.memoryBounds addr) s.pc i.opcode (advance i.length s) := by
  cases exec_effect h with
  | faulted => exact ⟨_, rfl⟩
  | wrote | stored => exact absurd ht hs

/-- A step that ends Faulted has raised a fault at its own `pc`, with the byte that stands there; before
that it has done nothing but, for an instruction that decoded, the advance. -/
theorem step_faulted {s t : State} (h : step s = .next t) (ht : t.run = .faulted) :
    ∃ f op s', s.prog[s.pc]? = some op ∧ (s' = s ∨ ∃ n, s' = advance n s) ∧
      t = raiseFault f s.pc op s' := by
  obtain ⟨hrun, ⟨-, rfl⟩ | ⟨-, -, rfl⟩ | ⟨-, -, op, hdec, rfl⟩ | ⟨-, -, op, hdec, rfl⟩ |
    ⟨-, -, i, n, hdec, he⟩⟩ := step_cases h
  case inl => cases ht
  case inr.inl => cases ht
  case inr.inr.inl =>
    obtain ⟨rest, hdrop, -⟩ := decode_eq_unknownOpcode.mp hdec
    exact ⟨_, op, s, getElem?_of_drop hdrop, .inl rfl, rfl⟩
  case inr.inr.inr.inl =>
    obtain ⟨-, rest, hdrop, -⟩ := decode_eq_truncated.mp hdec
    exact ⟨_, op, s, getElem?_of_drop hdrop, .inl rfl, rfl⟩
  case inr.inr.inr.inr =>
    obtain ⟨addr, rfl⟩ := exec_faulted he (by simp [hrun]) ht
    exact ⟨_, i.opcode, _, getElem?_of_decodes hdec, .inr ⟨_, rfl⟩, rfl⟩

/-- Settles O37: fault entry and the advance change no register, memory, program or parameter, and a
Faulted machine has no step. -/
theorem faultsArePrecise : Obligations.FaultsArePrecise := by
  intro s t h ht
  obtain ⟨f, op, s', hop, hs', rfl⟩ := step_faulted h ht
  have hframe : SameRegs s s' ∧ s'.mem = s.mem ∧ SameProgram s s' := by
    obtain rfl | ⟨n, rfl⟩ := hs' <;> exact ⟨fun _ => rfl, rfl, rfl, rfl⟩
  obtain ⟨hregs, hmem, hprog⟩ := hframe
  exact ⟨hregs, hmem, hprog, rfl, raisedCause_ne_none f, hop, no_step_of_faulted rfl⟩

/-- Settles O36: the step is the execution of what it decodes, whose access fails the bounds check. -/
theorem memoryBoundsReport : Obligations.MemoryBoundsReport := by
  intro s i n addr hrun hlim hdec ha hout
  obtain ⟨rfl, -⟩ := decodeAt_ok_bounds hdec
  obtain ⟨t, he, ⟨hpc, hsteps⟩, hfaulted, hcause, hfpc, hop, haddr, -⟩ := exec_boundsFaulted ha hout
  exact ⟨t, (step_of_decodes hrun hlim hdec).trans he, hfaulted, hcause, haddr,
    (getElem?_of_decodes hdec).trans (congrArg some hop.symm), hfpc, hpc, hsteps⟩

/-! ## The order of the fault tests -/

theorem lengthOf_eq_none {op : Byte} :
    lengthOf op = none ↔ op ≠ 234 ∧ op ≠ 102 ∧ op ≠ 90 ∧ op ≠ 224 :=
  Option.map_eq_none_iff.trans variantOf_eq_none

theorem opcode_row_of_lengthOf {op : Byte} {n : Nat} (h : lengthOf op = some n) :
    (op, n) ∈ [((234 : Byte), 3), (102, 4), (90, 2), (224, 7)] := by
  obtain ⟨v, hv, rfl⟩ := Option.map_eq_some_iff.mp h
  rw [variantOf_eq_some.mp hv]
  cases v <;> decide

/-- Settles O18: each fault by the statement about that fault alone; where no test holds, the step
executes an instruction that completes. -/
theorem faultPriority : Obligations.FaultPriority := by
  intro s t op rest hrun hlim hnone hdrop hstep
  refine ⟨fun hlen => ?unknown, fun n hlen hshort => ?truncated,
    fun n i addr _ _ hdec ha hb => ?bounds, fun n i _ _ hdec hb => ?completes⟩
  case unknown =>
    obtain ⟨h1, h2, h3, h4⟩ := lengthOf_eq_none.mp hlen
    obtain ⟨-, t', hstep', -, hcause, -⟩ :=
      unknownOpcodeIsFatal.left s op rest hrun hlim hdrop h1 h2 h3 h4
    cases hstep.symm.trans hstep'
    exact hcause
  case truncated =>
    obtain ⟨-, t', hstep', -, hcause, -⟩ :=
      (truncatedInstructionFaults s op rest n hrun hlim hdrop (opcode_row_of_lengthOf hlen)).left
        hshort
    cases hstep.symm.trans hstep'
    exact hcause
  case bounds =>
    obtain ⟨t', hstep', -, hcause, haddr, -⟩ :=
      memoryBoundsReport s i n addr hrun hlim (hdrop ▸ hdec) ha (by omega)
    cases hstep.symm.trans hstep'
    exact ⟨hcause, haddr⟩
  case completes =>
    have he := (step_of_decodes hrun hlim (hdrop ▸ hdec)).symm.trans hstep
    obtain ⟨hsame, hcause, -⟩ | ⟨-, hfails, -⟩ := exec_completes_or_faults he
    · exact ⟨hcause.trans hnone, hsame.trans hrun⟩
    · exact absurd hb hfails

end Sys2Proof.Machine
end

section
/-! A load after a store (70_reset_and_hazards.md R254): the store leaves the word it moved at its
address, and both of the stores in question move their source register as it is. -/

namespace Sys2Proof.Machine

@[simp] theorem lsr32_zero (w : Word) : lsr32 w 0 = w := by
  rw [lsr32_of_nonneg w le_rfl, Int.toNat_zero, BitVec.ushiftRight_zero]

theorem exec_readMem_of_address {off addr : Int} {dst base : RegIdx} {s : State}
    (ha : accessAddress (.readMem off dst base) s = some addr) (hb : InBounds s.cfg addr) :
    ∃ t, exec (.readMem off dst base) s = .next t ∧ readReg t dst = s.mem.read addr.toNat := by
  cases ha
  exact ⟨_, exec_readMem_inBounds hb, readReg_writeReg_same _ _ _⟩

/-- Settles O34: the address is in bounds for the load too, since the store keeps the parameters. -/
theorem loadSeesTheStore : Obligations.LoadSeesTheStore := by
  intro store src dst base off addr s t hstore hwf ha hb he hload
  have hkind : registerWritten store = none ∧ wordMoved store s = readReg s src := by
    obtain ⟨q, rfl⟩ | ⟨d, q, rfl⟩ := hstore
    · exact ⟨rfl, rfl⟩
    · exact ⟨rfl, lsr32_zero _⟩
  obtain ⟨hnone, hmoved⟩ := hkind
  obtain ⟨t', he', -, hword, -, -, -, ⟨-, hcfg⟩, -⟩ := exec_stores_wordMoved ha hnone hwf hb
  cases he.symm.trans he'
  obtain ⟨u, hu, hread⟩ := exec_readMem_of_address hload (by rwa [hcfg])
  exact ⟨u, hu, hread.trans (hword.trans hmoved)⟩

end Sys2Proof.Machine
end

section
/-! Runs that differ in the parameters: a step looks at MEM_SIZE and STEP_LIMIT alone
(70_reset_and_hazards.md R252). -/

namespace Sys2Proof.Machine

/-- A run of one step more that answers a state made the step and then the rest of the run. -/
theorem exists_step_of_run_succ {k : Nat} {s t : State}
    (h : Host.Core.run core (k + 1) s = .next t) :
    ∃ u, step s = .next u ∧ Host.Core.run core k u = .next t := by
  replace h := (Host.Core.run.eq_2 core s k).symm.trans h
  split at h
  · exact ⟨_, ‹_›, h⟩
  · cases h
  · cases h

section
variable {s t : State} {c : Config} (hsize : c.memSize = s.cfg.memSize)
include hsize

theorem inBounds_congr (addr : Int) : InBounds c addr ↔ InBounds s.cfg addr := by
  rw [InBounds, InBounds, hsize]

/-- An instruction looks at no parameter but MEM_SIZE. -/
theorem exec_with_cfg {i : Instr} (h : exec i s = .next t) :
    exec i { s with cfg := c } = .next { t with cfg := c } := by
  have haddr : accessAddress i { s with cfg := c } = accessAddress i s :=
    accessAddress_congr fun _ _ => rfl
  have hword : wordMoved i { s with cfg := c } = wordMoved i s :=
    wordMoved_congr rfl fun _ _ => rfl
  have hbounds := inBounds_congr hsize
  cases exec_effect h with
  | faulted ha hb => exact exec_of_not_inBounds (haddr.trans ha) (mt (hbounds _).mp hb)
  | wrote hr hb =>
    have hb' : AccessInBounds i { s with cfg := c } :=
      fun addr ha => (hbounds addr).mpr (hb addr (haddr ▸ ha))
    rw [exec_of_registerWritten hr hb', hword]
    rfl
  | stored hr ha hb =>
    rw [exec_of_store hr (haddr.trans ha) ((hbounds _).mpr hb), hword]
    rfl

/-- A step looks at no parameter but MEM_SIZE and STEP_LIMIT. -/
theorem step_with_cfg (hlimit : c.stepLimit = s.cfg.stepLimit) (h : step s = .next t) :
    step { s with cfg := c } = .next { t with cfg := c } := by
  have hlim : AtLimit { s with cfg := c } ↔ AtLimit s := by rw [AtLimit, AtLimit, hlimit]
  obtain ⟨hrun, ⟨hend, rfl⟩ | ⟨hend, hat, rfl⟩ | ⟨-, hnot, op, hdec, rfl⟩ |
    ⟨-, hnot, op, hdec, rfl⟩ | ⟨-, hnot, i, n, hdec, he⟩⟩ := step_cases h
  · exact step_of_atEnd hrun hend
  · exact step_of_atLimit hrun hend (hlim.mpr hat)
  · obtain ⟨rest, hdrop, -⟩ := decode_eq_unknownOpcode.mp hdec
    exact step_of_decode_failure (s := { s with cfg := c }) hrun (mt hlim.mp hnot) hdrop
      (hdrop ▸ hdec) (.inl ⟨rfl, rfl⟩)
  · obtain ⟨-, rest, hdrop, -, -⟩ := decode_eq_truncated.mp hdec
    exact step_of_decode_failure (s := { s with cfg := c }) hrun (mt hlim.mp hnot) hdrop
      (hdrop ▸ hdec) (.inr ⟨rfl, rfl⟩)
  · exact (step_of_decodes (s := { s with cfg := c }) hrun (mt hlim.mp hnot) hdec).trans
      (exec_with_cfg hsize he)

end

theorem run_with_cfg {k : Nat} {s t : State} {c : Config} (hsize : c.memSize = s.cfg.memSize)
    (hlimit : c.stepLimit = s.cfg.stepLimit) (h : Host.Core.run core k s = .next t) :
    Host.Core.run core k { s with cfg := c } = .next { t with cfg := c } := by
  induction k generalizing s with
  | zero => cases h; rfl
  | succ k ih =>
    obtain ⟨u, hstep, hrest⟩ := exists_step_of_run_succ h
    obtain ⟨-, hcfg⟩ := step_sameProgram hstep
    exact (run_succ (step_with_cfg hsize hlimit hstep)).trans
      (ih (by rwa [hcfg]) (by rwa [hcfg]) hrest)

/-- Settles O42: after reset and start the two states differ in the parameters alone. -/
theorem runsFromResetAreIdentical : Obligations.RunsFromResetAreIdentical := by
  intro s s' hprog hsize hlimit k t h
  have hstart : hostStart (hostReset s') = { hostStart (hostReset s) with cfg := s'.cfg } := by
    rw [hostReset, hprog]
    rfl
  rw [hstart]
  exact run_with_cfg hsize hlimit h

end Sys2Proof.Machine
end

section
/-! The invariant through the moves of the host (70_reset_and_hazards.md R240, R248, R250). -/

namespace Sys2Proof.Machine

/-- Settles O46: reset and load lead to a state after reset, and start sets the run state alone. -/
theorem hostMoveKeepsInv : Obligations.HostMoveKeepsInv :=
  fun _ _ _ h hmove => h.keep_hostMove hmove

end Sys2Proof.Machine
end

section
/-! Encoded programs run to their end (70_reset_and_hazards.md R256): with the encodings of the
instructions ahead of `pc`, each step executes the first of them and leaves the others ahead. -/

namespace Sys2Proof.Machine

/-! ## Passing over instructions -/

/-- `t` is past the encodings of the instructions `is` at the `pc` of `s` and has counted them; the run
state, the fault record, the program and the parameters are as they were. -/
structure Passed (is : List Instr) (s t : State) : Prop where
  run : t.run = s.run
  pc : t.pc = s.pc + (is.flatMap Instr.bytes).length
  steps : t.steps = s.steps + is.length
  record : SameRecord s t
  program : SameProgram s t

theorem Passed.nil (s : State) : Passed [] s s :=
  ⟨rfl, rfl, rfl, ⟨rfl, rfl, rfl, rfl⟩, ⟨rfl, rfl⟩⟩

theorem SameRecord.trans {s t u : State} (h : SameRecord s t) (h' : SameRecord t u) :
    SameRecord s u := by
  obtain ⟨hcause, hfpc, hop, haddr⟩ := h
  obtain ⟨hcause', hfpc', hop', haddr'⟩ := h'
  exact ⟨hcause'.trans hcause, hfpc'.trans hfpc, hop'.trans hop, haddr'.trans haddr⟩

theorem SameProgram.trans {s t u : State} (h : SameProgram s t) (h' : SameProgram t u) :
    SameProgram s u := by
  obtain ⟨hprog, hcfg⟩ := h
  obtain ⟨hprog', hcfg'⟩ := h'
  exact ⟨hprog'.trans hprog, hcfg'.trans hcfg⟩

theorem Passed.append {is js : List Instr} {s t u : State} (h : Passed is s t)
    (h' : Passed js t u) : Passed (is ++ js) s u where
  run := h'.run.trans h.run
  pc := by rw [h'.pc, h.pc, List.flatMap_append, List.length_append, Nat.add_assoc]
  steps := by rw [h'.steps, h.steps, List.length_append, Nat.add_assoc]
  record := h.record.trans h'.record
  program := h.program.trans h'.program

/-- An instruction whose access is in bounds completes. -/
theorem exec_passes {i : Instr} {s : State} (hb : AccessInBounds i s) :
    ∃ t, exec i s = .next t ∧ Passed [i] s t := by
  obtain ⟨t, he, -⟩ := exec_ends i s
  obtain ⟨hpc, hsteps⟩ := exec_counted he
  obtain ⟨hrun, hrec⟩ | ⟨-, hfails, -⟩ := exec_completes_or_faults he
  · exact ⟨t, he, hrun, by simpa using hpc, hsteps, hrec, exec_sameProgram he⟩
  · exact absurd hb hfails

/-! ## Lists of instructions -/

theorem execAll_cons {i : Instr} {rest : List Instr} {s t : State} (h : exec i s = .next t) :
    execAll (i :: rest) s = execAll rest t := by
  rw [execAll, h]

/-- Executing the instructions one after the other computes no address outside data memory. -/
def AccessesInBounds (is : List Instr) (s : State) : Prop :=
  ∀ (before after : List Instr) (i : Instr) (t : State) (addr : Int),
    is = before ++ i :: after → execAll before s = .next t → accessAddress i t = some addr →
    InBounds s.cfg addr

theorem AccessesInBounds.head {i : Instr} {rest : List Instr} {s : State}
    (h : AccessesInBounds (i :: rest) s) : AccessInBounds i s :=
  fun addr ha => h [] rest i s addr rfl rfl ha

theorem AccessesInBounds.tail {i : Instr} {rest : List Instr} {s t : State}
    (h : AccessesInBounds (i :: rest) s) (he : exec i s = .next t) : AccessesInBounds rest t := by
  intro before after j u addr hsplit hall ha
  obtain ⟨-, hcfg⟩ := exec_sameProgram he
  rw [hcfg]
  exact h (i :: before) after j u addr (congrArg (i :: ·) hsplit) ((execAll_cons he).trans hall) ha

/-! ## The program ahead of `pc` -/

/-- The machine runs, what is left of the program is the encoding of `is`, and neither the step
ceiling nor a bounds check stops it before their end. -/
structure ProgramAhead (is : List Instr) (s : State) : Prop where
  running : s.run = .running
  wellFormed : ∀ i ∈ is, i.WellFormed
  bytes : s.prog.drop s.pc = is.flatMap Instr.bytes
  withinLimit : ∀ limit, s.cfg.stepLimit = some limit → s.steps + is.length ≤ limit
  inBounds : AccessesInBounds is s

section
variable {i : Instr} {rest : List Instr} {s t : State} (h : ProgramAhead (i :: rest) s)
include h

theorem ProgramAhead.decodes : decodeAt s.prog s.pc = .ok (i, i.length) := by
  rw [decodeAt, h.bytes, List.flatMap_cons]
  exact decode_bytes_append (h.wellFormed i List.mem_cons_self) _

theorem ProgramAhead.not_atLimit : ¬ AtLimit s := by
  intro hlim
  have hfits := h.withinLimit s.steps hlim
  rw [List.length_cons] at hfits
  omega

theorem ProgramAhead.step_eq : step s = exec i s :=
  step_of_decodes h.running h.not_atLimit h.decodes

theorem ProgramAhead.tail (he : exec i s = .next t) (hp : Passed [i] s t) :
    ProgramAhead rest t := by
  obtain ⟨hprog, hcfg⟩ := hp.program
  exact {
    running := hp.run.trans h.running
    wellFormed := fun j hj => h.wellFormed j (List.mem_cons_of_mem i hj)
    bytes := by
      rw [hprog, hp.pc, ← List.drop_drop, h.bytes, List.flatMap_singleton, List.flatMap_cons,
        List.drop_left]
    withinLimit := fun limit hl => by
      have hfits := h.withinLimit limit (hcfg ▸ hl)
      rw [List.length_cons] at hfits
      rw [hp.steps, List.length_singleton]
      omega
    inBounds := h.inBounds.tail he }

end

/-- The machine takes one step for each instruction ahead, and ends where executing them ends. -/
theorem ProgramAhead.passes {is : List Instr} {s : State} (h : ProgramAhead is s) :
    ∃ t, execAll is s = .next t ∧ Passed is s t ∧
      ∀ k, Host.Core.run core (is.length + k) s = Host.Core.run core k t := by
  induction is generalizing s with
  | nil => exact ⟨s, rfl, .nil s, fun k => by rw [List.length_nil, Nat.zero_add]⟩
  | cons i rest ih =>
    obtain ⟨t, he, hp⟩ := exec_passes h.inBounds.head
    obtain ⟨u, hall, hpass, hrun⟩ := ih (h.tail he hp)
    refine ⟨u, (execAll_cons he).trans hall, hp.append hpass, fun k => ?_⟩
    calc Host.Core.run core ((i :: rest).length + k) s
        = Host.Core.run core (rest.length + k + 1) s := by
          rw [List.length_cons, Nat.add_right_comm]
      _ = Host.Core.run core (rest.length + k) t := run_succ (h.step_eq.trans he)
      _ = Host.Core.run core k u := hrun k

/-- Settles O49: the whole program is ahead at the start, and past it the end test halts the
machine. -/
theorem wellFormedProgramsRunToHalted : Obligations.WellFormedProgramsRunToHalted := by
  intro is s hwf hprog hrun hpc hsteps hlim hbounds
  have h : ProgramAhead is s :=
    ⟨hrun, hwf, by rw [hpc, hprog, List.drop_zero], by simpa [hsteps] using hlim, hbounds⟩
  obtain ⟨t, hall, hpass, hruns⟩ := h.passes
  obtain ⟨hprog', -⟩ := hpass.program
  have hpc' : t.pc = s.progLen := by rw [hpass.pc, hpc, Nat.zero_add, State.progLen, hprog]
  have hend : AtEnd t := hpc'.trans (congrArg List.length hprog'.symm)
  have hsteps' : t.steps = is.length := by rw [hpass.steps, hsteps, Nat.zero_add]
  have hhalt := step_of_atEnd (hpass.run.trans hrun) hend
  exact ⟨t, hall, (hruns 1).trans (run_succ hhalt), hpc', hsteps', hpass.record, hprog'⟩

end Sys2Proof.Machine
end
